-- ==== Sys2Proof/Word.lean ====
section
/-! DEFINITION. The word types of the LS8 core: the 8-bit byte of a register or a memory cell, the 9-bit program
counter and fault information. An address before its range check is a plain Nat: it is computed exactly and never wraps
(R36). -/

namespace Sys2Proof

/-- The value of a register, a memory cell, an opcode or an operand: 8 bits, unsigned (R8, R16, R34). -/
abbrev Byte := BitVec 8

/-- The program counter, FAULT_PC and FAULT_INFO: 9 bits, unsigned (R21, R30). -/
abbrev Word9 := BitVec 9

end Sys2Proof
end

