-- ==== Sys2Proof/Syntax.lean ====
section
/-! DEFINITION. The instructions: one constructor of Instr for each row of spec/opcode_table.json, and the seven
opcodes without their operands, which decoding finds first. -/

namespace Sys2Proof

/-- The seven opcodes of R53, in the table's order. -/
inductive Opcode where
  | ldi | prn | hlt | mul | div | add | sub
  deriving DecidableEq, Repr

/-- An instruction with its operand bytes as fetched. A register operand is the whole byte: the instruction itself
checks it (R55, R56), so a byte of 8 to 255 is syntax too, and faults when executed. -/
inductive Instr where
  /-- LDI Rr, imm (R69). -/
  | ldi (r imm : Byte)
  /-- PRN Rr (R70). -/
  | prn (r : Byte)
  /-- HLT (R71). -/
  | hlt
  /-- MUL RA, RB (R76). -/
  | mul (a b : Byte)
  /-- DIV RA, RB (R77). -/
  | div (a b : Byte)
  /-- ADD RA, RB (R78). -/
  | add (a b : Byte)
  /-- SUB RA, RB (R79). -/
  | sub (a b : Byte)
  deriving DecidableEq, Repr

/-- The opcode of an instruction. -/
def Instr.opcode : Instr → Opcode
  | .ldi _ _ => .ldi
  | .prn _ => .prn
  | .hlt => .hlt
  | .mul _ _ => .mul
  | .div _ _ => .div
  | .add _ _ => .add
  | .sub _ _ => .sub

end Sys2Proof
end

