-- ==== Sys2Proof/Decode.lean ====
section
/-! DEFINITION. Decoding and encoding (30_encoding.md). The opcode byte alone selects the instruction (R54) and its
top two bits count the operand bytes (R51). -/

namespace Sys2Proof

/-- `Decode(op)` of R54: the instruction whose opcode byte equals `op`, or none. -/
def decodeOpcode (op : Byte) : Option Opcode :=
  match op.toNat with
  | 0x82 => some .ldi
  | 0x47 => some .prn
  | 0x01 => some .hlt
  | 0xA2 => some .mul
  | 0xA3 => some .div
  | 0xA0 => some .add
  | 0xA1 => some .sub
  | _ => none

/-- `opcode[7:6]` of R51: how many operand bytes follow the opcode byte. -/
def operandCount (op : Byte) : Nat := op.toNat / 64

/-- `1 + opcode[7:6]` of R60: the length of the instruction in bytes. -/
def instrLength (op : Byte) : Nat := 1 + operandCount op

/-- The instruction of an opcode and the operand bytes `b1` and `b2` (R55). HLT reads neither and PRN reads `b1`. -/
def Opcode.withOperands (o : Opcode) (b1 b2 : Byte) : Instr :=
  match o with
  | .ldi => .ldi b1 b2
  | .prn => .prn b1
  | .hlt => .hlt
  | .mul => .mul b1 b2
  | .div => .div b1 b2
  | .add => .add b1 b2
  | .sub => .sub b1 b2

/-- Why a list of bytes holds no instruction at its front. -/
inductive DecodeError where
  /-- There is no byte to read as an opcode. -/
  | noOpcode
  /-- The first byte is none of the seven opcodes (R59). -/
  | unknownOpcode (op : Byte)
  /-- The opcode is defined, and fewer operand bytes follow than it counts (R51). -/
  | missingOperand (op : Byte)
  deriving DecidableEq, Repr

/-- The instruction at the front of a list of bytes and the bytes after it (R52, R54, R55, R60). Total: what is no
instruction is rejected by name. -/
def decode : List Byte → Except DecodeError (Instr × List Byte)
  | [] => .error .noOpcode
  | op :: rest =>
    match decodeOpcode op with
    | none => .error (.unknownOpcode op)
    | some o =>
      if rest.length < operandCount op then .error (.missingOperand op)
      else .ok (o.withOperands (rest.getD 0 0) (rest.getD 1 0), rest.drop (operandCount op))

/-- The opcode byte of R53. -/
def Opcode.byte : Opcode → Byte
  | .ldi => 0b10000010
  | .prn => 0b01000111
  | .hlt => 0b00000001
  | .mul => 0b10100010
  | .div => 0b10100011
  | .add => 0b10100000
  | .sub => 0b10100001

/-- The bytes of an instruction at ascending addresses (R52, R68). -/
def encode : Instr → List Byte
  | .ldi r imm => [Opcode.byte .ldi, r, imm]
  | .prn r => [Opcode.byte .prn, r]
  | .hlt => [Opcode.byte .hlt]
  | .mul a b => [Opcode.byte .mul, a, b]
  | .div a b => [Opcode.byte .div, a, b]
  | .add a b => [Opcode.byte .add, a, b]
  | .sub a b => [Opcode.byte .sub, a, b]

/-- Byte `k` of an instruction given as one number whose bits 7 to 0 are its first byte, with every bit from `nbits`
up taken as 0. -/
def tableByte (nbits w k : Nat) : Byte := BitVec.ofNat 8 (w % 2 ^ nbits / 256 ^ k)

/-- The three bytes, first at the lowest address, of an instruction given as one number: 3 is the longest defined
length (R51). -/
def tableBytes (nbits w : Nat) : List Byte := [tableByte nbits w 0, tableByte nbits w 1, tableByte nbits w 2]

/-- The instruction the decoder reads from the word `w` of `nbits` bits, numbered as spec/opcode_table.json numbers
them. -/
def decodeTableWord (nbits w : Nat) : Option Instr :=
  match decode (tableBytes nbits w) with
  | .ok (i, _) => some i
  | .error _ => none

end Sys2Proof
end

