-- ==== Sys2Proof/Config.lean ====
section
/-! DEFINITION. What is fixed for one build of the core: the two model arguments DIV_MODE and RESET_FILL of R6,
both values of each modelled, and the free values: the bytes no source gives. The sizes R6 fixes stand as numbers where
they are used: 256 cells, 8 registers. -/

namespace Sys2Proof

/-- DIV_MODE (R6, R77): what the DIV instruction computes. -/
inductive DivMode where
  /-- The default: DIV multiplies, as the source's opcode table says. -/
  | multiply
  /-- DIV is unsigned division with a DivideByZero fault. -/
  | divide
  deriving DecidableEq, Repr

/-- RESET_FILL (R6, R31): what a register or a cell is after reset. -/
inductive ResetFill where
  /-- Registers and cells hold no value the sources give until something writes them. -/
  | undefined
  /-- Registers and cells are 0. -/
  | zero
  deriving DecidableEq, Repr

/-- The two model arguments of R6. State carries them because `exec` and `step` take a state only (log entry 2). -/
structure Params where
  divMode : DivMode
  resetFill : ResetFill
  deriving DecidableEq, Repr

namespace Config

/-- The defaults of R6, which the spec uses wherever a rule does not name the other value. -/
def specDefault : Params := ⟨.multiply, .undefined⟩

/-- DESIGN CHOICE (unsafe, log entry 1): the arguments `State.reset` takes. DIV_MODE is the spec's default.
RESET_FILL is ZERO, the one of the spec's two values under which every register holds a value after reset. -/
def resetParams : Params := ⟨.multiply, .zero⟩

/-- FREE VALUE (log entry 13): the byte that the register of this index holds on the hardware from the `boot`-th reset on
until something writes it, with RESET_FILL = UNDEFINED (R31, R95: "some byte that no source gives"). -/
opaque unwrittenRegister : (boot index : Nat) → Byte

/-- FREE VALUE (log entry 13): the byte that the memory cell at this address holds on the hardware from the `boot`-th
reset on until something writes it, with RESET_FILL = UNDEFINED (R31, R95). -/
opaque unwrittenCell : (boot address : Nat) → Byte

end Config

end Sys2Proof
end

