-- ==== Sys2Proof/Machine/State.lean ====
section
/-! DEFINITION. The state of the core (10_state.md) as plain data, the reasons a step can stop, and the state after
reset. -/

namespace Sys2Proof.Machine

/-- The engine state (R25). Its 2-bit STATE code is `EngineState.code`. -/
inductive EngineState where
  | idle | running | halted | faulted
  deriving DecidableEq, Repr

/-- The causes a fault can have (R86). Code 0, no fault, is the reset value of the register and no cause. -/
inductive FaultCause where
  | outOfRangeAccess
  | unknownInstruction
  /-- Kept for the source's taxonomy; no step raises it (R90). -/
  | unsupportedOperation
  | divideByZero
  deriving DecidableEq, Repr

/-- FAULT_KIND (R30): what was out of range. `memory` is also the value for every other cause. -/
inductive FaultKind where
  | memory | register
  deriving DecidableEq, Repr

/-- The operation kinds of the ALU, exactly four (R75). -/
inductive AluKind where
  | add | sub | mul | div
  deriving DecidableEq, Repr

/-- The fault status registers with their widths (R30). STATE is `State.engine`. -/
structure FaultRegs where
  /-- FAULT_CAUSE -/
  cause : BitVec 3
  /-- FAULT_KIND -/
  kind : BitVec 1
  /-- FAULT_PC -/
  pc : Word9
  /-- FAULT_OPCODE -/
  opcode : Byte
  /-- FAULT_OPCODE_VALID -/
  opcodeValid : BitVec 1
  /-- FAULT_INFO -/
  info : Word9
  deriving DecidableEq, Repr

/-- Every fault status register at its reset value (R33). -/
def FaultRegs.clear : FaultRegs := ⟨0, 0, 0, 0, 0, 0⟩

/-- The memory as address and byte pairs in one canonical form (`Memory.wf` in Machine/Ops.lean): addresses strictly
rising and below 256, and no entry equal to what an unlisted address reads as (log entry 8). -/
abbrev Memory := List Host.Cell

/-- The whole state (R15), the host's output sequence (R101) and the two model arguments (R6). -/
structure State where
  /-- The model arguments DIV_MODE and RESET_FILL. The model's own field; nothing changes it (log entry 2). -/
  params : Params
  /-- How many resets the core has had. The model's own field: it picks the free values of `Config` after each reset, and
  nothing else reads it (log entry 14). -/
  boot : Nat
  /-- MEM[0..255] (R34). -/
  mem : Memory
  /-- x[0..7] (R16). `none` is the spec's own mark "holds no value" (R31), which only a reset with RESET_FILL = UNDEFINED
  brings about; a register so marked reads as a free value (log entry 13). In `State.reset` every register holds 0 (log
  entries 1 and 8). -/
  regs : Vector (Option Byte) 8
  /-- The program counter (R21). -/
  pc : Word9
  /-- The engine state `state` (R25). -/
  engine : EngineState
  /-- The fault status registers (R30). -/
  faultRegs : FaultRegs
  /-- The values emitted since reset, oldest first. The host holds them (R101); they are here because a run is observed
  with them (R117; DEDUCED, log entry 6). -/
  out : List Byte
  deriving DecidableEq, Repr

/-- Why a step can end outside a next state: nothing can. The faults of R85 are next states, with `engine` Faulted
(R89). Reading a register or cell that holds no value goes on with a free value, as the hardware does (R95); the model
outcome of R95 is reported beside the step, by `reportedStep` (log entry 7). -/
inductive Fault where
  deriving DecidableEq, Repr

/-- Why `exec` can have no meaning for an instruction. -/
inductive Refusal where
  /-- The instruction has no meaning in the model yet. No arm of `exec` raises it: all seven have theirs. Safe. -/
  | notModelled (mnemonic : String)
  deriving DecidableEq, Repr

/-- `raise Fault(cause, kind, info)` of R9, as an operation inside a step hands it up. -/
structure Raise where
  cause : FaultCause
  kind : FaultKind
  info : Word9
  deriving DecidableEq, Repr

/-- What every register is after reset (R33). -/
def resetRegister : ResetFill → Option Byte
  | .undefined => none
  | .zero => some 0

/-- The state after the `boot`-th reset under the model arguments `p` (R33, R109). The memory lists nothing: each address
reads as `Memory.unlisted` says. -/
def State.resetWith (p : Params) (boot : Nat) : State where
  params := p
  boot := boot
  mem := []
  regs := Vector.replicate 8 (resetRegister p.resetFill)
  pc := 0
  engine := .idle
  faultRegs := FaultRegs.clear
  out := []

/-- The machine right after reset: R33 with DIV_MODE = MULTIPLY and RESET_FILL = ZERO. DESIGN CHOICE (log entries 1 and
14); unsafe where a claim leans on the zeros. `State.resetWith Config.specDefault` is the spec's default. -/
def State.reset : State := State.resetWith Config.resetParams 0

end Sys2Proof.Machine
end

