-- ==== Sys2Proof/Machine/Flags.lean ====
section
/-! DEFINITION. The status fields the host reads: the running flag, the STATE code and the codes of the fault status
registers. The core has no flags register and no condition codes (R28): no instruction computes a flag, so no flag
computation stands here. -/

namespace Sys2Proof.Machine

/-- The source's running flag, the one flag the machine has: `state == Running` (R26). -/
def State.runningFlag (s : State) : Bool := s.engine == .running

/-- The 2-bit STATE field (R25, R30). -/
def EngineState.code : EngineState → BitVec 2
  | .idle => 0
  | .running => 1
  | .halted => 2
  | .faulted => 3

/-- The 3-bit FAULT_CAUSE code (R86). -/
def FaultCause.code : FaultCause → BitVec 3
  | .outOfRangeAccess => 1
  | .unknownInstruction => 2
  | .unsupportedOperation => 3
  | .divideByZero => 4

/-- The 1-bit FAULT_KIND code (R30, R87). -/
def FaultKind.code : FaultKind → BitVec 1
  | .memory => 0
  | .register => 1

end Sys2Proof.Machine
end

