-- ==== Sys2Proof/Machine/Ops.lean ====
section
/-! DEFINITION. The named operations every instruction and the instruction cycle use: memory, registers, output, fault
entry, and the advance of the program counter. There is no return from a fault (R97), so none stands beside fault
entry: only reset leaves Faulted. -/

namespace Sys2Proof.Machine

/-! ### Memory -/

/-- What an address the list does not name reads as: no value, or 0 (R31, R33). -/
def Memory.unlisted : ResetFill → Option Byte
  | .undefined => none
  | .zero => some 0

/-- The content of a cell: a value, or `none` for "holds no value" (R31). -/
def Memory.read (fill : ResetFill) : Memory → Nat → Option Byte
  | [], _ => Memory.unlisted fill
  | (k, v) :: m, a => if k = a then some v else Memory.read fill m a

/-- The list with the entry for `a` set to `v`, its addresses still rising. -/
def Memory.insert : Memory → Nat → Byte → Memory
  | [], a, v => [(a, v)]
  | (k, w) :: m, a, v =>
    if a < k then (a, v) :: (k, w) :: m
    else if a = k then (a, v) :: m
    else (k, w) :: Memory.insert m a v

/-- The list without an entry for `a`. -/
def Memory.erase : Memory → Nat → Memory
  | [], _ => []
  | (k, w) :: m, a => if k = a then Memory.erase m a else (k, w) :: Memory.erase m a

/-- The cell `a` takes the value `v`. Writing what an unlisted address reads as removes the entry. -/
def Memory.write (fill : ResetFill) (m : Memory) (a : Nat) (v : Byte) : Memory :=
  if Memory.unlisted fill = some v then Memory.erase m a else Memory.insert m a v

/-- The canonical form of a list whose first address is `lo` or above. -/
def Memory.wfFrom (fill : ResetFill) : Nat → Memory → Bool
  | _, [] => true
  | lo, (k, v) :: m =>
    decide (lo ≤ k) && decide (k < 256) && decide (Memory.unlisted fill ≠ some v)
      && Memory.wfFrom fill (k + 1) m

/-- The canonical form: addresses strictly rising and below 256, no entry equal to what an unlisted address reads
as. -/
def Memory.wf (fill : ResetFill) (m : Memory) : Bool := Memory.wfFrom fill 0 m

/-- The content of the cell `a` of the state's memory. -/
def State.cell (s : State) (a : Nat) : Option Byte := Memory.read s.params.resetFill s.mem a

/-- The byte the cell `a` holds on the hardware: its value, or the free value of a cell that holds none (R31, R95; log
entry 13). -/
def State.byteAt (s : State) (a : Nat) : Byte := (s.cell a).getD (Config.unwrittenCell s.boot a)

/-- `MemRead(addr, 1)` of R37. The information is the low 9 bits of the address (DEDUCED, log entry 10): no step reads
above 256. That the cell holds no value is reported by `reportedStep` (R95). -/
def memRead (s : State) (a : Nat) : Except Raise Byte :=
  if 256 ≤ a then .error ⟨.outOfRangeAccess, .memory, BitVec.ofNat 9 a⟩ else .ok (s.byteAt a)

/-- `MemWrite(addr, 1, v)` of R38. Only the host's load uses it (R35). -/
def memWrite (s : State) (a : Nat) (v : Byte) : Except Raise State :=
  if 256 ≤ a then .error ⟨.outOfRangeAccess, .memory, BitVec.ofNat 9 a⟩
  else .ok { s with mem := Memory.write s.params.resetFill s.mem a v }

/-- The `n` bytes from `a` up, each read by MemRead, in ascending order; the first that fails ends it (R61, R62). -/
def fetchBytes (s : State) : Nat → Nat → Except Raise (List Byte)
  | _, 0 => .ok []
  | a, n + 1 => do
    let b ← memRead s a
    let bs ← fetchBytes s (a + 1) n
    pure (b :: bs)

/-- The bytes stored by MemWrite from `a` up, in order (R110). -/
def storeBytes (s : State) : Nat → List Byte → Except Raise State
  | _, [] => .ok s
  | a, v :: vs => do
    let t ← memWrite s a v
    storeBytes t (a + 1) vs

/-! ### Registers and output -/

/-- `x[i]` of R9: the register's value, or the free value of a register that holds none (R31, R95; log entry 13). That
it holds none is reported by `reportedStep` (R95). -/
def readReg (s : State) (i : Fin 8) : Byte := s.regs[i].getD (Config.unwrittenRegister s.boot i)

/-- `x[i] <- v` of R9. The register now holds a value (R31). -/
def State.writeReg (s : State) (i : Fin 8) (v : Byte) : State := { s with regs := s.regs.set i (some v) }

/-- `Emit(v)` of R101: the host's sequence grows by one value at its end. -/
def State.emit (s : State) (v : Byte) : State := { s with out := s.out ++ [v] }

/-- `state <- S` of R9. -/
def State.setEngine (s : State) (e : EngineState) : State := { s with engine := e }

/-! ### Fault entry and the end of a step -/

/-- `FaultEntry(cause, kind, info)` of R89. `op` is the step's opcode byte, where one was fetched. -/
def faultEntry (s : State) (op : Option Byte) (cause : FaultCause) (kind : FaultKind) (info : Word9) : State :=
  { s with
    engine := .faulted
    faultRegs :=
      { cause := cause.code
        kind := kind.code
        pc := s.pc
        opcode := op.getD 0
        opcodeValid := if op.isSome then 1 else 0
        info := info } }

/-- What a `raise` makes of the state before the instruction: fault entry (R89), a next state. -/
def raised (s : State) (op : Option Byte) (e : Raise) : Host.Outcome State Fault Refusal :=
  .next (faultEntry s op e.cause e.kind e.info)

/-- The outcome of an execute part that ran from `s`: its state, or what its `raise` makes of `s`. -/
def concluded (s : State) (op : Byte) : Except Raise State → Host.Outcome State Fault Refusal
  | .ok t => .next t
  | .error e => raised s (some op) e

/-- `pc <- pc + 1 + n` of R62, with the length of the opcode byte just executed (R23). -/
def State.advance (s : State) (op : Byte) : State := { s with pc := s.pc + BitVec.ofNat 9 (instrLength op) }

/-- Step 5 of R62: the advance, unless the execute part raised a fault (R23, R89). -/
def advanced (op : Byte) : Host.Outcome State Fault Refusal → Host.Outcome State Fault Refusal
  | .next t => .next (if t.engine = .faulted then t else t.advance op)
  | .fault r => .fault r
  | .refused r => .refused r

end Sys2Proof.Machine
end

