-- ==== Sys2Proof/Machine/Operands.lean ====
section
/-! DEFINITION. Operands (R55): a register index, checked by the instruction, and the immediate, used as is. -/

namespace Sys2Proof.Machine

/-- An operand byte as a register index (R19, R56): the whole byte, not masked; 8 to 255 raise OutOfRangeAccess
(REGISTER) with the byte as its information. -/
def regIndex (b : Byte) : Except Raise (Fin 8) :=
  if h : b.toNat < 8 then .ok ⟨b.toNat, h⟩
  else .error ⟨.outOfRangeAccess, .register, b.setWidth 9⟩

/-- An operand byte as an immediate (R57): no extension, no scaling, no shift. -/
def immediate (b : Byte) : Byte := b

end Sys2Proof.Machine
end

