-- ==== Sys2Proof/Machine/Alu.lean ====
section
/-! DEFINITION. The ALU and the meanings of MUL, DIV, ADD and SUB (42_alu.md). -/

namespace Sys2Proof.Machine

/-- `ALU(kind, a, b)` of R75: exact on integers, then reduced modulo 256 (R80). With DIV_MODE = DIVIDE the divide is
called only with `b` not 0. -/
def alu (mode : DivMode) (kind : AluKind) (a b : Byte) : Byte :=
  match kind with
  | .add => BitVec.ofNat 8 (a.toNat + b.toNat)
  | .sub => BitVec.ofInt 8 ((a.toNat : Int) - (b.toNat : Int))
  | .mul => BitVec.ofNat 8 (a.toNat * b.toNat)
  | .div =>
    match mode with
    | .multiply => BitVec.ofNat 8 (a.toNat * b.toNat)
    | .divide => BitVec.ofNat 8 (a.toNat / b.toNat)

/-- The check of R75 and R91: a divide in DIVIDE mode by the value 0. -/
def dividesByZero (mode : DivMode) (kind : AluKind) (b : Byte) : Bool :=
  kind == .div && mode == .divide && b == 0

/-- `ExecuteALU(kind, A, B)` of R75: the checks in order, both reads, then the one register write. -/
def executeAlu (kind : AluKind) (A B : Byte) (s : State) : Except Raise State := do
  let i ← regIndex A
  let j ← regIndex B
  let a := readReg s i
  let b := readReg s j
  if dividesByZero s.params.divMode kind b then
    .error ⟨.divideByZero, .memory, B.setWidth 9⟩
  else
    pure (s.writeReg i (alu s.params.divMode kind a b))

/-- MUL RA, RB (R76). -/
def execMul (A B : Byte) (s : State) : Host.Outcome State Fault Refusal :=
  concluded s (Opcode.byte .mul) (executeAlu .mul A B s)

/-- DIV RA, RB (R77), under either DIV_MODE. -/
def execDiv (A B : Byte) (s : State) : Host.Outcome State Fault Refusal :=
  concluded s (Opcode.byte .div) (executeAlu .div A B s)

/-- ADD RA, RB (R78). -/
def execAdd (A B : Byte) (s : State) : Host.Outcome State Fault Refusal :=
  concluded s (Opcode.byte .add) (executeAlu .add A B s)

/-- SUB RA, RB (R79). -/
def execSub (A B : Byte) (s : State) : Host.Outcome State Fault Refusal :=
  concluded s (Opcode.byte .sub) (executeAlu .sub A B s)

end Sys2Proof.Machine
end

