-- ==== Sys2Proof/Machine/Control.lean ====
section
/-! DEFINITION. The meaning of HLT (41_control.md), the one control instruction (R72). -/

namespace Sys2Proof.Machine

/-- HLT (R71): the engine is Halted; the cycle still advances the program counter by 1. -/
def execHlt (s : State) : Host.Outcome State Fault Refusal := .next (s.setEngine .halted)

end Sys2Proof.Machine
end

