-- ==== Sys2Proof/Machine/RegisterOutput.lean ====
section
/-! DEFINITION. The meanings of LDI and PRN (40_register_and_output.md). -/

namespace Sys2Proof.Machine

/-- `Execute LDI(r, imm)` of R69. -/
def executeLdi (r imm : Byte) (s : State) : Except Raise State := do
  let i ← regIndex r
  pure (s.writeReg i (immediate imm))

/-- `Execute PRN(r)` of R70. -/
def executePrn (r : Byte) (s : State) : Except Raise State := do
  let i ← regIndex r
  pure (s.emit (readReg s i))

/-- LDI Rr, imm (R69). -/
def execLdi (r imm : Byte) (s : State) : Host.Outcome State Fault Refusal :=
  concluded s (Opcode.byte .ldi) (executeLdi r imm s)

/-- PRN Rr (R70). -/
def execPrn (r : Byte) (s : State) : Host.Outcome State Fault Refusal :=
  concluded s (Opcode.byte .prn) (executePrn r s)

end Sys2Proof.Machine
end

