-- ==== Sys2Proof/Machine/Cycle.lean ====
section
/-! DEFINITION. The instruction cycle (30_encoding.md R62) and the placing of an instruction where it is fetched. -/

namespace Sys2Proof.Machine

/-- `Step()` of R62 for a core that is Running: fetch, decode, operand fetch, execute, advance. -/
def cycle (s : State) : Host.Outcome State Fault Refusal :=
  match memRead s s.pc.toNat with
  | .error e => raised s none e
  | .ok op =>
    match decodeOpcode op with
    | none => raised s (some op) ⟨.unknownInstruction, .memory, op.setWidth 9⟩
    | some o =>
      match fetchBytes s (s.pc.toNat + 1) (operandCount op) with
      | .error e => raised s (some op) e
      | .ok bs => advanced op (exec (o.withOperands (bs.getD 0 0) (bs.getD 1 0)) s)

/-- The bytes put at `a` and up, as far as there are cells. -/
def State.placeBytes (s : State) : Nat → List Byte → State
  | _, [] => s
  | a, v :: vs =>
    match memWrite s a v with
    | .ok t => t.placeBytes (a + 1) vs
    | .error _ => s

/-- The instruction `w` of `nbits` bits put at the program counter of a Running core: what a load and a `run` bring
about (R110, R113; log entry 4). -/
def placeInstruction (s : State) (nbits w : Nat) : State :=
  (s.placeBytes s.pc.toNat (tableBytes nbits w)).setEngine .running

end Sys2Proof.Machine
end

