-- ==== Sys2Proof/Machine/Step.lean ====
section
/-! DEFINITION. One step of the machine. -/

namespace Sys2Proof.Machine

/-- One step: the instruction cycle while the core is Running (R62). In Idle, Halted and Faulted no instruction
executes (R27), and the state stays as it is (DESIGN CHOICE, safe; log entry 3). -/
def step (s : State) : Host.Outcome State Fault Refusal :=
  if s.engine = .running then cycle s else .next s

/-- The state with the instruction `w` of `nbits` bits where the next step fetches, and the core Running. -/
def State.withFetchWord (s : State) (nbits w : Nat) : State := placeInstruction s nbits w

end Sys2Proof.Machine
end

