-- ==== Sys2Proof/WellFormed.lean ====
section
/-! DEFINITION. Well-formed instructions: those an assembler writes (R65), every register operand of which is in 0 to
7. The core also executes the others (R56): they decode, and they fault. -/

namespace Sys2Proof

/-- A legal register operand (R19): the whole byte is below 8. -/
def isRegByte (b : Byte) : Bool := b.toNat < 8

/-- Every register operand of the instruction is legal. Every immediate is (R57). -/
def Instr.wf : Instr → Bool
  | .ldi r _ => isRegByte r
  | .prn r => isRegByte r
  | .hlt => true
  | .mul a b => isRegByte a && isRegByte b
  | .div a b => isRegByte a && isRegByte b
  | .add a b => isRegByte a && isRegByte b
  | .sub a b => isRegByte a && isRegByte b

end Sys2Proof
end

