-- ==== Sys2Proof/Machine/Assembly.lean ====
section
/-! DEFINITION. The assembler notation of R65: one line of text and the one instruction it stands for (R67). Text is a
list of characters. -/

namespace Sys2Proof.Machine

/-- The decimal digits of a byte, with no sign and no leading zeros (R65, R70). -/
def decimalDigits (v : Byte) : List Char := Nat.toDigits 10 v.toNat

/-- The value of a digit. PRESUMED: a hexadecimal digit may be a small or a capital letter (log entry 5). -/
def digitValue (c : Char) : Option Nat :=
  if '0' ≤ c ∧ c ≤ '9' then some (c.toNat - '0'.toNat)
  else if 'a' ≤ c ∧ c ≤ 'f' then some (c.toNat - 'a'.toNat + 10)
  else if 'A' ≤ c ∧ c ≤ 'F' then some (c.toNat - 'A'.toNat + 10)
  else none

/-- The value of digits of a base after the ones already read. -/
def digitsValue (base : Nat) : Nat → List Char → Option Nat
  | n, [] => some n
  | n, c :: cs =>
    match digitValue c with
    | some d => if d < base then digitsValue base (n * base + d) cs else none
    | none => none

/-- A numeral: at least one digit of the base. PRESUMED: leading zeros are accepted (log entry 5). -/
def numeral (base : Nat) : List Char → Option Nat
  | [] => none
  | c :: cs => digitsValue base 0 (c :: cs)

/-- A number that is a byte. -/
def byteOf (n : Nat) : Option Byte := if n < 256 then some (BitVec.ofNat 8 n) else none

/-- An immediate: decimal, `0b` binary or `0x` hexadecimal, in 0 to 255 (R65). PRESUMED: the marks are small letters (log
entry 5). -/
def parseImmediate : List Char → Option Byte
  | '0' :: 'b' :: ds => (numeral 2 ds).bind byteOf
  | '0' :: 'x' :: ds => (numeral 16 ds).bind byteOf
  | ds => (numeral 10 ds).bind byteOf

/-- A register: `R` and a decimal index in 0 to 7 (R65). -/
def parseRegister : List Char → Option Byte
  | 'R' :: ds => ((numeral 10 ds).bind byteOf).bind (fun b => if isRegByte b then some b else none)
  | _ => none

/-- The words and commas of a line; `word` holds the characters of the word being read. PRESUMED (log entry 5), because R65
says nothing of blanks: the space is the only blank; one or more spaces stand between two words; any number of spaces, also
none, may stand at the line's start, at its end, and on either side of the comma. -/
def tokensFrom (word : List Char) : List Char → List (List Char)
  | [] => if word.isEmpty then [] else [word]
  | c :: cs =>
    if c = ' ' then (if word.isEmpty then [] else [word]) ++ tokensFrom [] cs
    else if c = ',' then (if word.isEmpty then [] else [word]) ++ [','] :: tokensFrom [] cs
    else tokensFrom (word ++ [c]) cs

/-- The mnemonic of R14. -/
def Opcode.mnemonic : Opcode → List Char
  | .ldi => ['L', 'D', 'I']
  | .prn => ['P', 'R', 'N']
  | .hlt => ['H', 'L', 'T']
  | .mul => ['M', 'U', 'L']
  | .div => ['D', 'I', 'V']
  | .add => ['A', 'D', 'D']
  | .sub => ['S', 'U', 'B']

/-- The opcode of a mnemonic, written in capitals (R14, R65). -/
def parseMnemonic (m : List Char) : Option Opcode :=
  [Opcode.ldi, .prn, .hlt, .mul, .div, .add, .sub].find? (fun o => Opcode.mnemonic o == m)

/-- The instruction of two operand words (R65): LDI takes a register and an immediate, the ALU instructions two
registers. -/
def assembleTwo (o : Opcode) (x y : List Char) : Option Instr :=
  match o with
  | .ldi => (parseRegister x).bind fun r => (parseImmediate y).map fun v => .ldi r v
  | .prn => none
  | .hlt => none
  | .mul => (parseRegister x).bind fun a => (parseRegister y).map fun b => .mul a b
  | .div => (parseRegister x).bind fun a => (parseRegister y).map fun b => .div a b
  | .add => (parseRegister x).bind fun a => (parseRegister y).map fun b => .add a b
  | .sub => (parseRegister x).bind fun a => (parseRegister y).map fun b => .sub a b

/-- The instruction a line of R65 stands for, or none: an assembler refuses a register outside 0 to 7 and an immediate
outside 0 to 255. The comma between operands is optional. PRESUMED (log entry 5): a line holds the instruction and nothing
else, and a comma in any other place is refused. -/
def assemble (line : List Char) : Option Instr :=
  match tokensFrom [] line with
  | [m] => if parseMnemonic m = some .hlt then some .hlt else none
  | [m, x] => if parseMnemonic m = some .prn then (parseRegister x).map fun r => .prn r else none
  | [m, x, y] => (parseMnemonic m).bind fun o => assembleTwo o x y
  | [m, x, c, y] => if c = [','] then (parseMnemonic m).bind fun o => assembleTwo o x y else none
  | _ => none

/-- A register operand as R65 writes it. -/
def registerText (b : Byte) : List Char := 'R' :: decimalDigits b

/-- A mnemonic and two operands as R65 writes them, with the comma. -/
def twoOperandText (o : Opcode) (x y : List Char) : List Char := Opcode.mnemonic o ++ ' ' :: x ++ ',' :: ' ' :: y

/-- An instruction as R65 writes it, its immediate in decimal. -/
def assemblyText : Instr → List Char
  | .ldi r imm => twoOperandText .ldi (registerText r) (decimalDigits imm)
  | .prn r => Opcode.mnemonic .prn ++ ' ' :: registerText r
  | .hlt => Opcode.mnemonic .hlt
  | .mul a b => twoOperandText .mul (registerText a) (registerText b)
  | .div a b => twoOperandText .div (registerText a) (registerText b)
  | .add a b => twoOperandText .add (registerText a) (registerText b)
  | .sub a b => twoOperandText .sub (registerText a) (registerText b)

end Sys2Proof.Machine
end

