-- ==== Sys2Proof/Machine/HostPort.lean ====
section
/-! DEFINITION. The host's operations on the core, between steps (70_reset_and_hazards.md R108; 60_exceptions.md R101,
R103). -/

namespace Sys2Proof.Machine

/-- What `load` and `run` answer (R110 to R113). They are replies to the host and no faults of the core (R92). -/
inductive Reply where
  | ok
  | notIdle
  | badByte
  | programTooLarge
  deriving DecidableEq, Repr

/-- `reset` (R109): allowed in every state, and the only way out of Halted and Faulted. -/
def hostReset (s : State) : State := State.resetWith s.params (s.boot + 1)

/-- A byte value (R112): in 0 to 255. -/
def isByteValue (v : Int) : Bool := decide (0 ≤ v) && decide (v < 256)

/-- `load(bytes)` of R110: every check, in order, before the first write. The last branch is unreachable: after the
length check no MemWrite is out of range (R38; log entry 9). -/
def hostLoad (bytes : List Int) (s : State) : Reply × State :=
  if s.engine ≠ .idle then (.notIdle, s)
  else if bytes.any (fun v => !isByteValue v) then (.badByte, s)
  else if 256 < bytes.length then (.programTooLarge, s)
  else
    match storeBytes s 0 (bytes.map (BitVec.ofInt 8)) with
    | .ok t => (.ok, t)
    | .error _ => (.programTooLarge, s)

/-- `run` of R113: Idle to Running; the core then performs steps. -/
def hostRun (s : State) : Reply × State :=
  if s.engine = .idle then (.ok, s.setEngine .running) else (.notIdle, s)

/-- What `status` returns (R114): STATE and the fault status registers. -/
structure StatusRecord where
  state : BitVec 2
  faultRegs : FaultRegs
  deriving DecidableEq, Repr

/-- `status` of R114. -/
def hostStatus (s : State) : StatusRecord := ⟨s.engine.code, s.faultRegs⟩

/-- What the trace returns (R103); `none` is ABSENT. -/
structure TraceRecord where
  pc : Word9
  m0 : Option Byte
  m1 : Option Byte
  m2 : Option Byte
  regs : Vector (Option Byte) 8
  deriving DecidableEq, Repr

/-- `cell(a)` of R103, through the trace read port (R50): ABSENT out of range or where the cell holds no value. -/
def traceCell (s : State) (a : Nat) : Option Byte := if 256 ≤ a then none else s.cell a

/-- `Trace()` of R103. -/
def hostTrace (s : State) : TraceRecord where
  pc := s.pc
  m0 := traceCell s s.pc.toNat
  m1 := traceCell s (s.pc.toNat + 1)
  m2 := traceCell s (s.pc.toNat + 2)
  regs := s.regs

/-- The output as the host renders it: one line of decimal digits per emitted value (R70), in order. A line stands
without its line end, which the source leaves to the host (R101, N20; log entry 11). -/
def hostOutputLines (s : State) : List (List Char) := s.out.map decimalDigits

/-- The host's operations (R108). -/
inductive HostOp where
  | reset
  | load (bytes : List Int)
  | run
  | status
  | trace
  | output
  deriving DecidableEq, Repr

/-- The state after a host operation (log entry 12). `status`, `trace` and reading the output have no effect (R104, R108, R114). -/
def hostOp (o : HostOp) (s : State) : State :=
  match o with
  | .reset => hostReset s
  | .load bytes => (hostLoad bytes s).2
  | .run => (hostRun s).2
  | .status => s
  | .trace => s
  | .output => s

end Sys2Proof.Machine
end

