-- ==== Sys2Proof/Machine/Report.lean ====
section
/-! DEFINITION. The model outcome of R95, `ModelFault(UninitRead, pc)`, reported beside the step. It is no hardware event:
the hardware goes on with the byte that is there, and so does `step`. -/

namespace Sys2Proof.Machine

/-- The register operand bytes of an instruction, in the order they are checked (R55, R93). -/
def registerBytes : Instr → List Byte
  | .ldi r _ => [r]
  | .prn r => [r]
  | .hlt => []
  | .mul a b => [a, b]
  | .div a b => [a, b]
  | .add a b => [a, b]
  | .sub a b => [a, b]

/-- The register operand bytes an instruction reads the value of (R18): PRN's one and both of an ALU instruction. -/
def sourceBytes : Instr → List Byte
  | .ldi _ _ => []
  | .prn r => [r]
  | .hlt => []
  | .mul a b => [a, b]
  | .div a b => [a, b]
  | .add a b => [a, b]
  | .sub a b => [a, b]

/-- The register an operand byte names holds no value (R31). -/
def registerHoldsNoValue (s : State) (b : Byte) : Bool :=
  match regIndex b with
  | .ok i => s.regs[i].isNone
  | .error _ => false

/-- The register reads of an execute part meet a register that holds no value (R93, checks 5 and 6). -/
def sourcesHoldNoValue (s : State) (i : Instr) : Bool :=
  (registerBytes i).all isRegByte && (sourceBytes i).any (registerHoldsNoValue s)

/-- A fetch of `n` bytes from `a` up meets a cell that holds no value before it meets the end of memory (R93, checks 1, 2
and 4). -/
def cellsHoldNoValue (s : State) : Nat → Nat → Bool
  | _, 0 => false
  | a, n + 1 => decide (a < 256) && ((s.cell a).isNone || cellsHoldNoValue s (a + 1) n)

/-- The step from `s` raises `ModelFault(UninitRead)` (R95): in the order of R93, the first check of the step that fails is
one for a value. -/
def readsNoValue (s : State) : Bool :=
  cellsHoldNoValue s s.pc.toNat 1 ||
  match memRead s s.pc.toNat with
  | .error _ => false
  | .ok op =>
    match decodeOpcode op with
    | none => false
    | some o =>
      cellsHoldNoValue s (s.pc.toNat + 1) (operandCount op) ||
      match fetchBytes s (s.pc.toNat + 1) (operandCount op) with
      | .error _ => false
      | .ok bs => sourcesHoldNoValue s (o.withOperands (bs.getD 0 0) (bs.getD 1 0))

/-- The model outcome of R95, a terminal outcome that is not Halted and not Faulted. -/
inductive ModelFault where
  /-- `ModelFault(UninitRead, pc)`: the step at `pc` reads a cell or a register that holds no value. Reported by
  `reportedStep` only, and only with RESET_FILL = UNDEFINED. Safe: what it reports is a state in which the byte read is
  unknown. -/
  | uninitRead (pc : Word9)
  deriving DecidableEq, Repr

/-- The step as R95 reports it: the model fault, with no architectural change, where the step reads something that holds
no value, and else what `step` answers. -/
def reportedStep (s : State) : Host.Outcome State ModelFault Refusal :=
  if s.engine = .running ∧ readsNoValue s = true then .fault (.uninitRead s.pc)
  else
    match step s with
    | .next t => .next t
    | .fault r => nomatch r
    | .refused r => .refused r

/-- The machine whose step is the reported one, after a reset with the spec's default arguments (R6). -/
def reportedCore : Host.Core where
  State := State
  Fault := ModelFault
  Refusal := Refusal
  step := reportedStep
  reset := State.resetWith Config.specDefault 0

end Sys2Proof.Machine
end

