-- ==== Sys2Proof/Safety.lean ====
section
/-! DEFINITION. The terms the claims use: the invariant of the core, its moves, the end of a run, an instruction standing
at the program counter, and the shape the rules of the four ALU instructions share. -/

namespace Sys2Proof.Machine

/-! ### The invariant -/

/-- What the fault status registers say in a Faulted core (R30, R87 to R91): FAULT_PC is `pc`, a valid FAULT_OPCODE is
the byte at `pc`, and the cause, kind and information are those of one of the four faults that can be raised. -/
def State.FaultTold (s : State) : Prop :=
  s.faultRegs.pc = s.pc ∧
  ((s.faultRegs.cause = 1 ∧ s.faultRegs.kind = 0 ∧ s.faultRegs.info = 256 ∧
      s.faultRegs.opcodeValid = 0 ∧ s.faultRegs.opcode = 0 ∧ s.pc = 256) ∨
    (s.faultRegs.opcodeValid = 1 ∧ s.pc.toNat < 256 ∧ s.byteAt s.pc.toNat = s.faultRegs.opcode ∧
      ((s.faultRegs.cause = 1 ∧ s.faultRegs.kind = 0 ∧ s.faultRegs.info = 256 ∧
          decodeOpcode s.faultRegs.opcode ≠ none ∧ 256 ≤ s.pc.toNat + operandCount s.faultRegs.opcode) ∨
        (s.faultRegs.cause = 1 ∧ s.faultRegs.kind = 1 ∧ 8 ≤ s.faultRegs.info.toNat ∧
          decodeOpcode s.faultRegs.opcode ≠ none ∧
          ∃ k, 1 ≤ k ∧ k ≤ operandCount s.faultRegs.opcode ∧
            (s.byteAt (s.pc.toNat + k)).setWidth 9 = s.faultRegs.info) ∨
        (s.faultRegs.cause = 2 ∧ s.faultRegs.kind = 0 ∧
          s.faultRegs.info = s.faultRegs.opcode.setWidth 9 ∧ decodeOpcode s.faultRegs.opcode = none) ∨
        (s.faultRegs.cause = 4 ∧ s.faultRegs.kind = 0 ∧ s.faultRegs.info.toNat < 8 ∧
          s.faultRegs.opcode = 0xA3 ∧ s.params.divMode = .divide))))

/-- The invariant of the core: what holds after reset and which every step and every host operation keeps. -/
structure State.Inv (s : State) : Prop where
  /-- The memory keeps its canonical form, every address below 256 (R34). -/
  memory : Memory.wf s.params.resetFill s.mem = true
  /-- The program counter is in 0 to 256 (R21). -/
  pc : s.pc.toNat ≤ 256
  /-- With RESET_FILL = ZERO nothing ever holds no value (R31). -/
  filled : s.params.resetFill = .zero → ∀ i : Fin 8, s.regs[i] ≠ none
  /-- Idle is the state before `run` (R25): no instruction has executed. -/
  idle : s.engine = .idle →
    s.pc = 0 ∧ s.out = [] ∧ s.regs = Vector.replicate 8 (resetRegister s.params.resetFill)
  /-- Only fault entry writes the fault status registers (R30). -/
  noFault : s.engine ≠ .faulted → s.faultRegs = FaultRegs.clear
  /-- After a fault they describe it. -/
  faultTold : s.engine = .faulted → s.FaultTold

/-! ### Moves and runs -/

/-- What can happen to the core: a host operation between steps (R108), or a step while it is Running (R62). -/
inductive Move (s : State) : State → Prop where
  | host (o : HostOp) : Move s (hostOp o s)
  | step {t : State} : s.engine = .running → Machine.step s = .next t → Move s t

/-- The states the core reaches from reset under the model arguments `p`. -/
inductive Reached (p : Params) : State → Prop where
  | reset (boot : Nat) : Reached p (State.resetWith p boot)
  | move {s t : State} : Reached p s → Move s t → Reached p t

/-- A run, as R95 reports its steps, ends Halted, Faulted or at the model fault (R117). -/
def RunEnded : Host.Outcome State ModelFault Refusal → Prop
  | .next t => t.engine = .halted ∨ t.engine = .faulted
  | .fault _ => True
  | .refused _ => False

/-- The only successful end: Halted with no model fault (R117). -/
def SuccessfulEnd : Host.Outcome State ModelFault Refusal → Prop
  | .next t => t.engine = .halted
  | .fault _ => False
  | .refused _ => False

/-! ### Reading a state -/

/-- The bytes of the instruction are written in memory from the program counter up (R40, R52), all of them in range. -/
abbrev State.InstrAt (s : State) (i : Instr) : Prop :=
  ∀ k : Fin (encode i).length, s.pc.toNat + k < 256 ∧ s.cell (s.pc.toNat + k) = some (encode i)[k]

/-- The bytes a step reads from the program counter up are the instruction's, all of them in range; a cell that holds no
value has the byte the hardware has there (R95; log entry 13). -/
abbrev State.InstrRead (s : State) (i : Instr) : Prop :=
  ∀ k : Fin (encode i).length, s.pc.toNat + k < 256 ∧ s.byteAt (s.pc.toNat + k) = (encode i)[k]

/-- What the register `i` reads as: its value, or the free value of a register that holds none (R31, R95; log entry
13). -/
abbrev State.RegReads (s : State) (i : Fin 8) (x : Byte) : Prop :=
  s.regs[i] = some x ∨ (s.regs[i] = none ∧ x = Config.unwrittenRegister s.boot i)

/-- The two states agree on all a program depends on: everything but the output and the fault status registers. -/
abbrev SameProgramView (s t : State) : Prop :=
  s.params = t.params ∧ s.boot = t.boot ∧ s.mem = t.mem ∧ s.regs = t.regs ∧ s.pc = t.pc ∧ s.engine = t.engine

/-- The register an instruction writes (R18): LDI's operand and the first operand of an ALU instruction. -/
def destination : Instr → Option Byte
  | .ldi r _ => some r
  | .prn _ => none
  | .hlt => none
  | .mul a _ => some a
  | .div a _ => some a
  | .add a _ => some a
  | .sub a _ => some a

/-! ### The shape of an instruction's rule -/

/-- The operand fetch after the opcode byte `op` (R62, R87, R95), before the execute part. Where an operand byte would lie
at address 256 or above, every cell before it written, the cycle raises OutOfRangeAccess (MEMORY) with information 256. An
operand byte that holds no value is reported as the model fault. -/
def OperandFetchRule (op : Byte) : Prop :=
  (∀ s : State, s.engine = .running → s.pc.toNat < 256 → s.cell s.pc.toNat = some op →
    256 ≤ s.pc.toNat + operandCount op →
    (∀ a, s.pc.toNat < a → a < 256 → s.cell a ≠ none) →
    step s = .next (faultEntry s (some op) .outOfRangeAccess .memory 256)) ∧
  ∀ (s : State) (k : Nat), s.engine = .running → s.cell s.pc.toNat = some op → 1 ≤ k → k ≤ operandCount op →
    s.pc.toNat + k < 256 → s.cell (s.pc.toNat + k) = none → reportedStep s = .fault (.uninitRead s.pc)

/-- The rule MUL, DIV, ADD and SUB share (R75 to R79), for the states and second values it `applies` to: the encoding,
the one register write with everything else unchanged, the advance by 3, the faults of the operand fetch and of the two
register bytes in order, and the model fault reported for a register that holds no value. -/
def AluRule (mk : Byte → Byte → Instr) (op : Byte) (applies : Params → Byte → Prop)
    (result : Params → Byte → Byte → Byte) : Prop :=
  (∀ A B, encode (mk A B) = [op, A, B]) ∧
  (∀ (A B : Byte) (hA : A.toNat < 8) (hB : B.toNat < 8) (s : State) (x y : Byte),
    s.regs[A.toNat] = some x → s.regs[B.toNat] = some y → applies s.params y →
    exec (mk A B) s = .next { s with regs := s.regs.set A.toNat (some (result s.params x y)) } ∧
    (s.engine = .running → s.InstrAt (mk A B) →
      step s = .next { s with regs := s.regs.set A.toNat (some (result s.params x y)), pc := s.pc + 3 })) ∧
  OperandFetchRule op ∧
  (∀ (A B : Byte) (s : State), 8 ≤ A.toNat →
    exec (mk A B) s = .next (faultEntry s (some op) .outOfRangeAccess .register (A.setWidth 9))) ∧
  (∀ (A B : Byte) (s : State), A.toNat < 8 → 8 ≤ B.toNat →
    exec (mk A B) s = .next (faultEntry s (some op) .outOfRangeAccess .register (B.setWidth 9))) ∧
  (∀ (A B : Byte) (hA : A.toNat < 8) (hB : B.toNat < 8) (s : State), s.engine = .running → s.InstrAt (mk A B) →
    s.regs[A.toNat] = none ∨ s.regs[B.toNat] = none →
    reportedStep s = .fault (.uninitRead s.pc))

/-- What an ALU instruction does on the hardware whatever its registers and its bytes in memory read as (R95; log entry
13): the same register write and the same advance. -/
def AluGoesOn (mk : Byte → Byte → Instr) (applies : Params → Byte → Prop) (result : Params → Byte → Byte → Byte) : Prop :=
  ∀ (A B : Byte) (hA : A.toNat < 8) (hB : B.toNat < 8) (s : State) (x y : Byte),
    s.RegReads ⟨A.toNat, hA⟩ x → s.RegReads ⟨B.toNat, hB⟩ y → applies s.params y →
    exec (mk A B) s = .next { s with regs := s.regs.set A.toNat (some (result s.params x y)) } ∧
    (s.engine = .running → s.InstrRead (mk A B) →
      step s = .next { s with regs := s.regs.set A.toNat (some (result s.params x y)), pc := s.pc + 3 })

end Sys2Proof.Machine
end

