-- ==== Sys2Proof/Certificates/Slice0/Obligations.lean ====
section
/-! DEFINITION. The statements for the provers, from the numbered rules of spec/. -/

open Sys2Proof Sys2Proof.Machine

/-! ### Encoding and decoding (30_encoding.md) -/

/-- R54: decode compares the whole byte with the seven opcodes, and two bytes that differ decode differently or not at
all. -/
def Obligations.DecodeComparesTheWholeOpcodeByte : Prop :=
  (∀ op : Byte, decodeOpcode op =
    if op = 0x82 then some .ldi else if op = 0x47 then some .prn else if op = 0x01 then some .hlt
    else if op = 0xA2 then some .mul else if op = 0xA3 then some .div else if op = 0xA0 then some .add
    else if op = 0xA1 then some .sub else none) ∧
  ∀ x y : Byte, x ≠ y → decodeOpcode x = decodeOpcode y → decodeOpcode x = none

/-- R51, R52, R55, R60, R68: the decoder reads an instruction from a list of bytes exactly when the list begins with that
instruction's encoding, whatever its operand bytes. -/
def Obligations.DecodeReadsExactlyTheEncodings : Prop :=
  ∀ (bytes rest : List Byte) (i : Instr), decode bytes = .ok (i, rest) ↔ bytes = encode i ++ rest

/-- R53, R68: words written out from the opcode table decode to their rows' instructions. -/
def Obligations.WordsWrittenOutFromTheTableDecode : Prop :=
  decode [0b10000010, 0, 8] = .ok (.ldi 0 8, []) ∧
  decode [0b01000111, 0] = .ok (.prn 0, []) ∧
  decode [0b00000001] = .ok (.hlt, []) ∧
  decode [0b10100010, 6, 7] = .ok (.mul 6 7, []) ∧
  decode [0b10100011, 2, 3] = .ok (.div 2 3, []) ∧
  decode [0b10100000, 0, 1] = .ok (.add 0 1, []) ∧
  decode [0b10100001, 4, 4] = .ok (.sub 4 4, [])

/-- R68: the bytes of each instruction. -/
def Obligations.EncodingIsOpcodeThenOperandBytes : Prop :=
  (∀ r imm : Byte, encode (.ldi r imm) = [0x82, r, imm]) ∧
  (∀ r : Byte, encode (.prn r) = [0x47, r]) ∧
  encode .hlt = [0x01] ∧
  (∀ A B : Byte, encode (.mul A B) = [0xA2, A, B]) ∧
  (∀ A B : Byte, encode (.div A B) = [0xA3, A, B]) ∧
  (∀ A B : Byte, encode (.add A B) = [0xA0, A, B]) ∧
  (∀ A B : Byte, encode (.sub A B) = [0xA1, A, B]) ∧
  encode (.ldi 0 8) = [0x82, 0x00, 0x08]

/-- R65: an instruction an assembler may write is assembled from its text, and an assembler gives no other kind. The text
form is `assemblyText`, with the comma and a decimal immediate. -/
def Obligations.AssemblerReadsWhatItWrites : Prop :=
  (∀ i : Instr, i.wf = true → assemble (assemblyText i) = some i) ∧
  ∀ (line : List Char) (i : Instr), assemble line = some i → i.wf = true

/-- R59, R88: 249 of the 256 bytes are illegal, among them 0x00 and every byte that counts three operands; fetching one as
an opcode raises UnknownInstruction with the byte, whatever stands after it, and changes nothing else. -/
def Obligations.IllegalOpcodeRaisesUnknownInstruction : Prop :=
  ((List.range 256).filter (fun n => decodeOpcode (BitVec.ofNat 8 n) == none)).length = 249 ∧
  (∀ op : Byte, operandCount op = 3 → decodeOpcode op = none) ∧
  decodeOpcode 0x00 = none ∧
  ∀ (s : State) (op : Byte), s.engine = .running → s.pc.toNat < 256 → s.cell s.pc.toNat = some op →
    decodeOpcode op = none →
    step s = .next { s with engine := .faulted, faultRegs := ⟨2, 0, s.pc, op, 1, op.setWidth 9⟩ }

/-! ### The instruction cycle (30_encoding.md, 10_state.md) -/

/-- R62: when the bytes at the program counter decode to an instruction, a step of a Running core is `exec` of it, and
then, unless it faulted, the program counter advances by the length of its encoding. For a byte nothing has written, that
the step goes on to `exec` with the byte the hardware has there rests on R95's "the run goes on with it"
(60_exceptions.md section 5) and on the model's reading of it as a free value (log entry 13, DEDUCED). R62 itself says
ModelFault there, which `reportedStep` reports (log entry 7). -/
def Obligations.StepRunsTheDecodedInstruction : Prop :=
  ∀ (s : State) (bytes rest : List Byte) (i : Instr), s.engine = .running →
    (∀ (k : Nat) (hk : k < bytes.length), s.pc.toNat + k < 256 ∧ s.byteAt (s.pc.toNat + k) = bytes[k]) →
    decode bytes = .ok (i, rest) →
    (∀ t, exec i s = .next t → t.engine ≠ .faulted →
      step s = .next { t with pc := t.pc + BitVec.ofNat 9 (encode i).length }) ∧
    (∀ t, exec i s = .next t → t.engine = .faulted → step s = .next t)

/-- R24, R87: a Running core whose program counter is 256 or above raises OutOfRangeAccess (MEMORY) at the next fetch, with
no opcode recorded, and changes nothing else. -/
def Obligations.FetchAtTheEndOfMemoryFaults : Prop :=
  ∀ s : State, s.engine = .running → 256 ≤ s.pc.toNat →
    step s = .next { s with engine := .faulted, faultRegs := ⟨1, 0, s.pc, 0, 0, s.pc⟩ }

/-- R95: a step is reported as the model fault exactly when it reads an opcode byte, an operand byte or a source register
that holds no value, and only with RESET_FILL = UNDEFINED; every other step is reported as it is. -/
def Obligations.ModelFaultExactlyOnReadsOfNoValue : Prop :=
  (∀ (s : State) (r : ModelFault), s.engine = .running →
    (reportedStep s = .fault r ↔ r = .uninitRead s.pc ∧
      ((s.pc.toNat < 256 ∧ s.cell s.pc.toNat = none) ∨
        (∃ (op : Byte) (k : Nat), s.cell s.pc.toNat = some op ∧ decodeOpcode op ≠ none ∧ 1 ≤ k ∧
          k ≤ operandCount op ∧ s.pc.toNat + k < 256 ∧ s.cell (s.pc.toNat + k) = none) ∨
        (∃ i : Instr, s.InstrAt i ∧ (∀ b ∈ registerBytes i, b.toNat < 8) ∧
          ∃ b ∈ sourceBytes i, ∃ _ : b.toNat < 8, s.regs[b.toNat] = none)))) ∧
  (∀ s : State, (∀ r, reportedStep s ≠ .fault r) → ∀ t, reportedStep s = .next t ↔ step s = .next t) ∧
  ∀ (s : State) (r : ModelFault), s.Inv → reportedStep s = .fault r → s.params.resetFill = .undefined

/-- R23: the program counter advances by 1 + opcode[7:6] of the opcode byte just executed, and an instruction that faults
does not advance it, of every step that is not the model fault of R95. -/
def Obligations.StepAdvancesByTheOpcodesLength : Prop :=
  ∀ s t : State, s.engine = .running → reportedStep s = .next t →
    (t.engine = .faulted → t.pc = s.pc) ∧
    (t.engine ≠ .faulted →
      ∃ op : Byte, s.cell s.pc.toNat = some op ∧ t.pc.toNat = s.pc.toNat + 1 + (op.extractLsb' 6 2).toNat)

/-- R10, R18, R28, R29, R63, R72: what the execute part of every instruction leaves unchanged. No instruction writes the
program counter, the memory or the model arguments; a register changes only as the destination; the output only by PRN;
the engine state only by HLT and faults; the fault status registers only by faults, which change nothing else. -/
def Obligations.ExecuteChangesOnlyWhatItsRuleNames : Prop :=
  ∀ (i : Instr) (s t : State), exec i s = .next t →
    t.pc = s.pc ∧ t.params = s.params ∧ t.boot = s.boot ∧ (∀ a : Nat, t.cell a = s.cell a) ∧
    (∀ j : Fin 8, destination i ≠ some (BitVec.ofNat 8 j) → t.regs[j] = s.regs[j]) ∧
    ((∀ r, i ≠ .prn r) → t.out = s.out) ∧
    ((t.faultRegs = s.faultRegs ∧ t.engine = if i = .hlt then .halted else s.engine) ∨
      (t.engine = .faulted ∧ t.regs = s.regs ∧ t.out = s.out))

/-- R18: in any step, a register changes only as the destination of the LDI or ALU instruction read at the program
counter. What a byte nothing has written reads as is log entry 13 (DEDUCED); that a step outside
Running changes nothing is log entry 3 (DESIGN CHOICE). -/
def Obligations.OnlyLoadImmediateAndAluWriteRegisters : Prop :=
  ∀ (s t : State) (j : Fin 8), step s = .next t → t.regs[j] ≠ s.regs[j] →
    s.engine = .running ∧ ∃ (i : Instr) (d : Byte), s.InstrRead i ∧ destination i = some d ∧ d.toNat = j ∧
      t.engine = .running

/-- R35, R48, R120: no instruction writes memory, and the host writes it only in Idle. That a step outside Running, where
no instruction executes, writes none either is log entry 3 (DESIGN CHOICE). -/
def Obligations.MemoryChangesOnlyByTheHostInIdle : Prop :=
  (∀ s t : State, step s = .next t → t.mem = s.mem ∧ ∀ a : Nat, t.cell a = s.cell a) ∧
  ∀ (o : HostOp) (s : State), o ≠ .reset → s.engine ≠ .idle → (hostOp o s).mem = s.mem

/-- R61: a step reads no byte but the instruction's own: with any other memory that holds the same instruction at the
program counter it does the same, and where the bytes hold the same in both it is reported the same. What a byte nothing
has written reads as is log entry 13 (DEDUCED). -/
def Obligations.StepReadsNoByteButTheInstructions : Prop :=
  ∀ (s : State) (m : Memory) (i : Instr), s.engine = .running → s.InstrRead i → ({ s with mem := m } : State).InstrRead i →
    (∀ t, step s = .next t → step { s with mem := m } = .next { t with mem := m }) ∧
    ((∀ k : Fin (encode i).length,
        ({ s with mem := m } : State).cell (s.pc.toNat + k) = s.cell (s.pc.toNat + k)) →
      ∀ r, reportedStep s = .fault r → reportedStep { s with mem := m } = .fault r)

/-- The model's choice (log entry 3) for R27's "no instruction executes": outside Running, a step changes nothing. -/
def Obligations.NothingExecutesOutsideRunning : Prop :=
  ∀ s : State, s.engine ≠ .running → step s = .next s

/-- R27: the engine state changes by reset to Idle, by `run` from Idle to Running, by HLT from Running to Halted and by a
fault from Running to Faulted, and only so; Halted and Faulted are terminal until reset. The clause that a step there
answers the same state is the model's choice (log entry 3) for R27's "no instruction executes". What a byte nothing has
written reads as is log entry 13 (DEDUCED). -/
def Obligations.EngineStateChangesOnlyByResetRunHaltAndFault : Prop :=
  (∀ s : State, (hostOp .reset s).engine = .idle) ∧
  (∀ (o : HostOp) (s : State), o ≠ .reset → (hostOp o s).engine ≠ s.engine →
    o = .run ∧ s.engine = .idle ∧ (hostOp o s).engine = .running) ∧
  (∀ s : State, s.engine = .idle → (hostOp .run s).engine = .running) ∧
  (∀ s t : State, step s = .next t → t.engine ≠ s.engine →
    s.engine = .running ∧ ((t.engine = .halted ∧ s.InstrRead .hlt) ∨ t.engine = .faulted)) ∧
  ∀ s : State, s.engine = .halted ∨ s.engine = .faulted →
    step s = .next s ∧ ∀ o : HostOp, o ≠ .reset → hostOp o s = s

/-- R29, R101: no instruction reads the fault status registers or the values emitted before: two states that agree on the
rest step alike, and emit alike. Outside Running this rests on log entry 3 (DESIGN CHOICE). -/
def Obligations.StepsDoNotDependOnOutputOrFaultStatus : Prop :=
  ∀ s t : State, SameProgramView s t →
    (∀ u, step s = .next u → ∃ v, step t = .next v ∧ SameProgramView u v ∧
      ∃ emitted, u.out = s.out ++ emitted ∧ v.out = t.out ++ emitted) ∧
    (∀ r, reportedStep s = .fault r → reportedStep t = .fault r)

/-- R31: a write gives a value and nothing but reset takes one away. That a step outside Running takes none away is log
entry 3 (DESIGN CHOICE). -/
def Obligations.OnlyResetTakesAValueAway : Prop :=
  (∀ s t : State, step s = .next t →
    (∀ j : Fin 8, s.regs[j] ≠ none → t.regs[j] ≠ none) ∧ (∀ a : Nat, s.cell a ≠ none → t.cell a ≠ none)) ∧
  ∀ (o : HostOp) (s : State), o ≠ .reset →
    (∀ j : Fin 8, s.regs[j] ≠ none → (hostOp o s).regs[j] ≠ none) ∧
    (∀ a : Nat, s.cell a ≠ none → (hostOp o s).cell a ≠ none)

/-- R74: a Running core that fetches a cell nothing has written is reported as the model fault with RESET_FILL = UNDEFINED,
and raises UnknownInstruction on the byte 0x00 with RESET_FILL = ZERO. -/
def Obligations.RunningOffTheProgramStopsTheRun : Prop :=
  ∀ s : State, s.engine = .running → s.pc.toNat < 256 → (∀ c ∈ s.mem, c.1 ≠ s.pc.toNat) →
    (s.params.resetFill = .undefined → reportedStep s = .fault (.uninitRead s.pc)) ∧
    (s.params.resetFill = .zero →
      step s = .next { s with engine := .faulted, faultRegs := ⟨2, 0, s.pc, 0, 1, 0⟩ })

/-! ### LDI, PRN and HLT (40_register_and_output.md, 41_control.md) -/

/-- R69: LDI. -/
def Obligations.LoadImmediateWritesItsRegister : Prop :=
  (∀ r imm : Byte, encode (.ldi r imm) = [0x82, r, imm]) ∧
  (∀ (r imm : Byte) (hr : r.toNat < 8) (s : State),
    exec (.ldi r imm) s = .next { s with regs := s.regs.set r.toNat (some imm) } ∧
    (s.engine = .running → s.InstrAt (.ldi r imm) →
      step s = .next { s with regs := s.regs.set r.toNat (some imm), pc := s.pc + 3 })) ∧
  OperandFetchRule 0x82 ∧
  (∀ (r imm : Byte) (s : State), 8 ≤ r.toNat →
    exec (.ldi r imm) s = .next (faultEntry s (some 0x82) .outOfRangeAccess .register (r.setWidth 9))) ∧
  ∀ (r imm : Byte) (s : State) (f : ModelFault), s.InstrAt (.ldi r imm) → reportedStep s ≠ .fault f

/-- R70: PRN, and the line of decimal digits the host renders for each value. That a line of `hostOutputLines` stands
without its line end is the model's choice (log entry 11). -/
def Obligations.PrintEmitsItsRegister : Prop :=
  (∀ r : Byte, encode (.prn r) = [0x47, r]) ∧
  (∀ (r : Byte) (hr : r.toNat < 8) (s : State) (v : Byte), s.regs[r.toNat] = some v →
    exec (.prn r) s = .next { s with out := s.out ++ [v] } ∧
    (s.engine = .running → s.InstrAt (.prn r) →
      step s = .next { s with out := s.out ++ [v], pc := s.pc + 2 })) ∧
  OperandFetchRule 0x47 ∧
  (∀ (r : Byte) (s : State), 8 ≤ r.toNat →
    exec (.prn r) s = .next (faultEntry s (some 0x47) .outOfRangeAccess .register (r.setWidth 9))) ∧
  (∀ (r : Byte) (hr : r.toNat < 8) (s : State), s.engine = .running → s.InstrAt (.prn r) → s.regs[r.toNat] = none →
    reportedStep s = .fault (.uninitRead s.pc)) ∧
  (∀ s : State, hostOutputLines s = s.out.map decimalDigits) ∧
  ∀ v : Byte, numeral 10 (decimalDigits v) = some v.toNat ∧
    (v ≠ 0 → (decimalDigits v).head? ≠ some '0') ∧ (v = 0 → decimalDigits v = ['0'])

/-- R71: HLT, at every address up to 255. The clause over further steps rests on the model's choice (log entry 3) that a
step in Halted answers the same state. -/
def Obligations.HaltStopsTheEngineAndAdvances : Prop :=
  encode .hlt = [0x01] ∧
  ∀ s : State, exec .hlt s = .next { s with engine := .halted } ∧
    (s.engine = .running → s.InstrAt .hlt →
      step s = .next { s with engine := .halted, pc := s.pc + 1 } ∧ (s.pc + 1).toNat = s.pc.toNat + 1 ∧
      ∀ k : Nat, Host.Core.run core (k + 1) s = .next { s with engine := .halted, pc := s.pc + 1 })

/-- R101: the output grows only by a PRN that completes, by one value at its end. What a byte or a register nothing has
written reads as is log entry 13 (DEDUCED); that a step outside Running emits nothing is log entry 3 (DESIGN CHOICE). -/
def Obligations.OnlyACompletedPrintEmits : Prop :=
  ∀ s t : State, step s = .next t →
    t.out = s.out ∨
    ∃ (r : Byte) (hr : r.toNat < 8) (v : Byte), s.engine = .running ∧ s.InstrRead (.prn r) ∧
      s.RegReads ⟨r.toNat, hr⟩ v ∧ t = { s with out := s.out ++ [v], pc := s.pc + 2 }

/-! ### The ALU instructions (42_alu.md) -/

/-- R76: MUL. -/
def Obligations.MultiplyRule : Prop :=
  AluRule .mul 0xA2 (fun _ _ => True) (fun _ x y => BitVec.ofNat 8 (x.toNat * y.toNat))

/-- R77: DIV under both modes. -/
def Obligations.DivideRule : Prop :=
  AluRule .div 0xA3 (fun p y => p.divMode = .divide → y ≠ 0)
    (fun p x y => match p.divMode with
      | .multiply => BitVec.ofNat 8 (x.toNat * y.toNat)
      | .divide => BitVec.ofNat 8 (x.toNat / y.toNat)) ∧
  ∀ (A B : Byte) (hA : A.toNat < 8) (hB : B.toNat < 8) (s : State), s.params.divMode = .divide →
    s.regs[A.toNat] ≠ none → s.regs[B.toNat] = some 0 →
    exec (.div A B) s = .next (faultEntry s (some 0xA3) .divideByZero .memory (B.setWidth 9))

/-- R78: ADD. -/
def Obligations.AddRule : Prop :=
  AluRule .add 0xA0 (fun _ _ => True) (fun _ x y => BitVec.ofNat 8 (x.toNat + y.toNat))

/-- R79: SUB. -/
def Obligations.SubtractRule : Prop :=
  AluRule .sub 0xA1 (fun _ _ => True) (fun _ x y => BitVec.ofInt 8 ((x.toNat : Int) - (y.toNat : Int)))

/-- R80, R81: the four operations are exact on integers and reduced modulo 256; a product is the low 8 bits of the 16-bit
product. -/
def Obligations.AluComputesModulo256 : Prop :=
  ∀ (mode : DivMode) (x y : Byte),
    ((alu mode .add x y).toNat : Int) = ((x.toNat : Int) + y.toNat) % 256 ∧
    ((alu mode .sub x y).toNat : Int) = ((x.toNat : Int) - y.toNat) % 256 ∧
    ((alu mode .mul x y).toNat : Int) = ((x.toNat : Int) * y.toNat) % 256 ∧
    alu mode .mul x y = (x.setWidth 16 * y.setWidth 16).extractLsb' 0 8 ∧
    alu .multiply .div x y = alu mode .mul x y ∧
    (y ≠ 0 → ((alu .divide .div x y).toNat : Int) = ((x.toNat : Int) / y.toNat) % 256)

/-- R83: with one register as source and destination both operands are its value before the instruction. -/
def Obligations.SameRegisterAsBothOperands : Prop :=
  ∀ (A : Byte) (hA : A.toNat < 8) (s : State) (a : Byte), s.regs[A.toNat] = some a →
    exec (.add A A) s = .next { s with regs := s.regs.set A.toNat (some (BitVec.ofNat 8 (2 * a.toNat))) } ∧
    exec (.sub A A) s = .next { s with regs := s.regs.set A.toNat (some 0) } ∧
    exec (.mul A A) s = .next { s with regs := s.regs.set A.toNat (some (BitVec.ofNat 8 (a.toNat * a.toNat))) } ∧
    (s.params.divMode = .multiply → exec (.div A A) s =
      .next { s with regs := s.regs.set A.toNat (some (BitVec.ofNat 8 (a.toNat * a.toNat))) }) ∧
    (s.params.divMode = .divide → a ≠ 0 → exec (.div A A) s =
      .next { s with regs := s.regs.set A.toNat (some 1) }) ∧
    (s.params.divMode = .divide → a = 0 → exec (.div A A) s =
      .next (faultEntry s (some 0xA3) .divideByZero .memory (A.setWidth 9)))

/-- R84: results are the integers' exactly when those are in 0 to 255; ADD then SUB of two different registers gives back
the whole state, and of one register gives 0. -/
def Obligations.AddThenSubtractRoundTrip : Prop :=
  (∀ (mode : DivMode) (x y : Byte),
    ((alu mode .add x y).toNat = x.toNat + y.toNat ↔ x.toNat + y.toNat ≤ 255) ∧
    (((alu mode .sub x y).toNat : Int) = (x.toNat : Int) - y.toNat ↔ y.toNat ≤ x.toNat) ∧
    ((alu mode .mul x y).toNat = x.toNat * y.toNat ↔ x.toNat * y.toNat ≤ 255)) ∧
  (∀ (A B : Byte) (hA : A.toNat < 8) (hB : B.toNat < 8) (s : State), A ≠ B →
    s.regs[A.toNat] ≠ none → s.regs[B.toNat] ≠ none →
    ∃ t, exec (.add A B) s = .next t ∧ exec (.sub A B) t = .next s) ∧
  ∀ (A : Byte) (hA : A.toNat < 8) (s : State), s.regs[A.toNat] ≠ none →
    ∃ t, exec (.add A A) s = .next t ∧
      exec (.sub A A) t = .next { s with regs := s.regs.set A.toNat (some 0) }

/-! ### Faults (60_exceptions.md) -/

/-- R89: fault entry with a cause, a kind and an information, and that a step that faults is such an entry: it records the
cause, the kind, the program counter, the opcode byte where one was fetched and the information, enters Faulted, and
changes nothing else; of every step that is not the model fault of R95. -/
def Obligations.FaultsArePreciseAndRecorded : Prop :=
  (∀ (s : State) (cause : FaultCause) (kind : FaultKind) (info : Word9),
    (∀ op : Byte, faultEntry s (some op) cause kind info =
      { s with engine := .faulted, faultRegs := ⟨cause.code, kind.code, s.pc, op, 1, info⟩ }) ∧
    faultEntry s none cause kind info =
      { s with engine := .faulted, faultRegs := ⟨cause.code, kind.code, s.pc, 0, 0, info⟩ }) ∧
  ∀ s t : State, s.engine = .running → reportedStep s = .next t → t.engine = .faulted →
    ∃ (cause : FaultCause) (kind : FaultKind) (info : Word9),
      (kind = .register → cause = .outOfRangeAccess) ∧
      ((256 ≤ s.pc.toNat ∧
          t = { s with engine := .faulted, faultRegs := ⟨cause.code, kind.code, s.pc, 0, 0, info⟩ }) ∨
        (∃ op : Byte, s.pc.toNat < 256 ∧ s.cell s.pc.toNat = some op ∧
          t = { s with engine := .faulted, faultRegs := ⟨cause.code, kind.code, s.pc, op, 1, info⟩ }))

/-- R87: OutOfRangeAccess is raised exactly by an opcode fetch at 256, by an operand fetch at 256, and by a register
operand byte of 8 to 255, the first in order, each with the address or the byte as its information. -/
def Obligations.OutOfRangeAccessExactlyWhenOutOfRange : Prop :=
  (∀ s : State, s.engine = .running → 256 ≤ s.pc.toNat →
    step s = .next { s with engine := .faulted, faultRegs := ⟨1, 0, s.pc, 0, 0, s.pc⟩ }) ∧
  (∀ o : Opcode, OperandFetchRule o.byte) ∧
  (∀ (s : State) (i : Instr), s.engine = .running → s.InstrAt i → (∃ b ∈ registerBytes i, 8 ≤ b.toNat) →
    ∃ b, (registerBytes i).find? (fun c => decide (8 ≤ c.toNat)) = some b ∧
      step s = .next { s with
        engine := .faulted, faultRegs := ⟨1, 1, s.pc, i.opcode.byte, 1, b.setWidth 9⟩ }) ∧
  ∀ s t : State, s.engine = .running → s.pc.toNat ≤ 256 → reportedStep s = .next t → t.engine = .faulted →
    t.faultRegs.cause = 1 →
    (t.faultRegs.kind = 0 ∧ t.faultRegs.info = 256 ∧
      (s.pc = 256 ∨ ∃ op : Byte, s.cell s.pc.toNat = some op ∧ decodeOpcode op ≠ none ∧
        256 ≤ s.pc.toNat + operandCount op)) ∨
    (t.faultRegs.kind = 1 ∧ ∃ i : Instr, s.InstrAt i ∧
      ∃ b ∈ registerBytes i, 8 ≤ b.toNat ∧ t.faultRegs.info = b.setWidth 9)

/-- R90, R86: in every state the core reaches, FAULT_CAUSE is 0, 1, 2 or 4: UnsupportedOperation (3) is never raised, and
5 to 7 are never written. -/
def Obligations.UnsupportedOperationIsNeverRaised : Prop :=
  ∀ (p : Params) (s : State), Reached p s →
    s.faultRegs.cause = 0 ∨ s.faultRegs.cause = 1 ∨ s.faultRegs.cause = 2 ∨ s.faultRegs.cause = 4

/-- R91: DivideByZero is raised exactly by DIV with DIV_MODE = DIVIDE when the value of x[B] is 0, after the register
checks and reads, with the index B as its information. -/
def Obligations.DivideByZeroExactlyInDivideMode : Prop :=
  (∀ (s : State) (A B : Byte) (hA : A.toNat < 8) (hB : B.toNat < 8), s.engine = .running → s.InstrAt (.div A B) →
    s.params.divMode = .divide → s.regs[A.toNat] ≠ none → s.regs[B.toNat] = some 0 →
    step s = .next { s with engine := .faulted, faultRegs := ⟨4, 0, s.pc, 0xA3, 1, B.setWidth 9⟩ }) ∧
  ∀ s t : State, s.engine = .running → reportedStep s = .next t → t.engine = .faulted → t.faultRegs.cause = 4 →
    s.params.divMode = .divide ∧ ∃ (A B : Byte) (_ : A.toNat < 8) (_ : B.toNat < 8), s.InstrAt (.div A B) ∧
      s.regs[A.toNat] ≠ none ∧ s.regs[B.toNat] = some 0 ∧ t.faultRegs.info = B.setWidth 9

/-- R62, R85: no step and no execute part is refused. R62 gives a step in Running only; that a step in Idle, Halted or
Faulted is answered with the same state, and so is not refused either, is the model's choice (log entry 3, DESIGN
CHOICE). -/
def Obligations.NoInstructionIsRefused : Prop :=
  (∀ (i : Instr) (s : State) (r : Refusal), exec i s ≠ .refused r) ∧
  ∀ (s : State) (r : Refusal), step s ≠ .refused r

/-! ### Invariants and runs -/

/-- The invariant holds after every reset, and at the model's reset state (log entry 1). -/
def Obligations.ResetMeetsTheInvariant : Prop :=
  (∀ (p : Params) (boot : Nat), (State.resetWith p boot).Inv) ∧ State.reset.Inv

/-- R20, R21, R30, R31, R34, R87 to R91: every step keeps the invariant. Its clause on the fault status registers takes a
byte nothing has written as it reads by log entry 13 (DEDUCED); outside Running a step keeps it by log entry 3 (DESIGN
CHOICE). -/
def Obligations.EveryStepKeepsTheInvariant : Prop :=
  ∀ s t : State, s.Inv → step s = .next t → t.Inv

/-- R108 to R113: every host operation keeps the invariant. -/
def Obligations.EveryHostOperationKeepsTheInvariant : Prop :=
  ∀ (o : HostOp) (s : State), s.Inv → (hostOp o s).Inv

/-- After R118: the machine is Halted or Faulted after 257 steps from every Running state, whatever the bytes nothing has
written are, and the run as R95 reports its steps has ended by then. R117 and R118 let a run end at the model fault too;
that the machine itself goes on there to Halted or Faulted rests on log entries 13 (DEDUCED: the read goes on with a free
value) and 7 (DEDUCED: the model fault is reported beside the step). That the state of the end still stands after 257
steps rests on log entry 3 (DESIGN CHOICE: a step outside Running answers the same state). -/
def Obligations.EveryRunEndsWithin257Steps : Prop :=
  ∀ s : State, s.engine = .running →
    (∃ t, Host.Core.run core 257 s = .next t ∧ (t.engine = .halted ∨ t.engine = .faulted)) ∧
    RunEnded (Host.Core.run reportedCore 257 s)

/-- R21: every program counter from 0 to 256 is reached, and none above. -/
def Obligations.ProgramCounterReachesExactly0To256 : Prop :=
  (∀ (p : Params) (s : State), Reached p s → s.pc.toNat ≤ 256) ∧
  ∀ n, n ≤ 256 → ∃ (p : Params) (s : State), Reached p s ∧ s.pc.toNat = n

/-! ### Memory and the host (20_memory.md, 70_reset_and_hazards.md) -/

/-- R37: MemRead. Up to 511 the information is the address itself; that it is the low 9 bits of an address of 512 or
above, which no run reads, is the model's reading (log entry 10, DEDUCED). A cell that holds no value reads as a free value
(log entry 13); that this is `ModelFault(UninitRead)` is reported of the step, ModelFaultExactlyOnReadsOfNoValue. -/
def Obligations.MemReadRule : Prop :=
  ∀ (s : State) (a : Nat),
    (256 ≤ a → memRead s a = .error ⟨.outOfRangeAccess, .memory, BitVec.ofNat 9 a⟩) ∧
    (a < 256 → s.cell a = none → memRead s a = .ok (Config.unwrittenCell s.boot a)) ∧
    ∀ v : Byte, a < 256 → s.cell a = some v → memRead s a = .ok v

/-- R38, R45: MemWrite, and the reads after it. Up to 511 the information is the address itself; that it is the low 9 bits
of an address of 512 or above, which no run writes, is the model's reading (log entry 10, DEDUCED). -/
def Obligations.MemWriteThenMemRead : Prop :=
  ∀ (s : State) (a : Nat) (v : Byte),
    (256 ≤ a → memWrite s a v = .error ⟨.outOfRangeAccess, .memory, BitVec.ofNat 9 a⟩) ∧
    (a < 256 → ∃ t, memWrite s a v = .ok t ∧ t = { s with mem := t.mem } ∧ memRead t a = .ok v ∧
      ∀ b, b ≠ a → memRead t b = memRead s b)

/-- R34: the canonical form is one form: two memories in it that read alike are equal. The form is the model's. -/
def Obligations.CanonicalMemoriesThatReadAlikeAreEqual : Prop :=
  ∀ (fill : ResetFill) (m n : Memory), Memory.wf fill m = true → Memory.wf fill n = true →
    (∀ a, a < 256 → Memory.read fill m a = Memory.read fill n a) → m = n

/-- R33, R109: every piece of state after the host's reset, from any state, under each RESET_FILL. -/
def Obligations.ResetValues : Prop :=
  ∀ s : State,
    (hostReset s).engine = .idle ∧ (hostReset s).engine.code = 0 ∧ (hostReset s).runningFlag = false ∧
    (hostReset s).pc = 0 ∧ (hostReset s).faultRegs = ⟨0, 0, 0, 0, 0, 0⟩ ∧ (hostReset s).out = [] ∧
    (s.params.resetFill = .undefined →
      (∀ j : Fin 8, (hostReset s).regs[j] = none) ∧ ∀ a, a < 256 → (hostReset s).cell a = none) ∧
    (s.params.resetFill = .zero →
      (∀ j : Fin 8, (hostReset s).regs[j] = some 0) ∧ ∀ a, a < 256 → (hostReset s).cell a = some 0)

/-- The model's choice (log entry 1): its reset state is R33's with DIV_MODE = MULTIPLY and RESET_FILL = ZERO. -/
def Obligations.ModelResetIsTheZeroFilledReset : Prop :=
  State.reset = { hostReset State.reset with boot := 0 } ∧ State.reset.params = ⟨.multiply, .zero⟩ ∧
  (∀ j : Fin 8, State.reset.regs[j] = some 0) ∧ ∀ a, a < 256 → State.reset.cell a = some 0

/-- R110, R111, R112, R92: load. -/
def Obligations.LoadRule : Prop :=
  ∀ (bytes : List Int) (s : State),
    (s.engine ≠ .idle → hostLoad bytes s = (.notIdle, s)) ∧
    (s.engine = .idle → (∃ v ∈ bytes, v < 0 ∨ 255 < v) → hostLoad bytes s = (.badByte, s)) ∧
    (s.engine = .idle → (∀ v ∈ bytes, 0 ≤ v ∧ v ≤ 255) → 256 < bytes.length →
      hostLoad bytes s = (.programTooLarge, s)) ∧
    (s.engine = .idle → (∀ v ∈ bytes, 0 ≤ v ∧ v ≤ 255) → bytes.length ≤ 256 →
      ∃ t, hostLoad bytes s = (.ok, t) ∧ t = { s with mem := t.mem } ∧
        (∀ (k : Nat) (hk : k < bytes.length), ∃ v, t.cell k = some v ∧ (v.toNat : Int) = bytes[k]) ∧
        ∀ a, bytes.length ≤ a → t.cell a = s.cell a)

/-- R113: run. That the steps after it end Halted, Faulted or at a model fault is R117's, and the bound of 257 steps
R118's; that the state of the end still stands after 257 steps rests on log entry 3 (DESIGN CHOICE: a step outside
Running answers the same state). -/
def Obligations.RunIsAcceptedOnlyInIdle : Prop :=
  ∀ s : State,
    (s.engine = .idle → hostRun s = (.ok, { s with engine := .running }) ∧
      RunEnded (Host.Core.run reportedCore 257 { s with engine := .running })) ∧
    (s.engine ≠ .idle → hostRun s = (.notIdle, s))

/-- R114, R25, R30: status returns STATE and the fault status registers, with no effect. -/
def Obligations.StatusReturnsTheStatusRegisters : Prop :=
  ∀ s : State, hostOp .status s = s ∧ (hostStatus s).faultRegs = s.faultRegs ∧
    (hostStatus s).state =
      (match s.engine with | .idle => 0 | .running => 1 | .halted => 2 | .faulted => 3)

/-- R103, R104: the trace, and that it has no effect. -/
def Obligations.TraceReportsAndChangesNothing : Prop :=
  ∀ s : State, hostOp .trace s = s ∧ (hostTrace s).pc = s.pc ∧ (hostTrace s).regs = s.regs ∧
    ∀ (k : Nat) (m : Option Byte),
      (k = 0 ∧ m = (hostTrace s).m0) ∨ (k = 1 ∧ m = (hostTrace s).m1) ∨ (k = 2 ∧ m = (hostTrace s).m2) →
      (256 ≤ s.pc.toNat + k → m = none) ∧ (s.pc.toNat + k < 256 → m = s.cell (s.pc.toNat + k))

/-- R115: no host operation but reset writes a register, the program counter, the output or a fault status register, and
while the core is Running none changes anything. -/
def Obligations.HostCannotInterfereWithARun : Prop :=
  ∀ (o : HostOp) (s : State), o ≠ .reset →
    (hostOp o s).regs = s.regs ∧ (hostOp o s).pc = s.pc ∧ (hostOp o s).faultRegs = s.faultRegs ∧
    (hostOp o s).out = s.out ∧ (s.engine = .running → hostOp o s = s)

/-- R116: reset, load of a program of up to 256 bytes, run: the core is Running at address 0 with the program in memory,
and its first step is the cycle on the program's first byte. -/
def Obligations.BootRunsTheLoadedProgramFromZero : Prop :=
  ∀ (s0 : State) (bytes : List Byte), bytes.length ≤ 256 →
    ∃ s, hostOp .run (hostOp (.load (bytes.map fun b => (b.toNat : Int))) (hostOp .reset s0)) = s ∧
      s.engine = .running ∧ s.pc = 0 ∧ s.out = [] ∧ s.params = s0.params ∧
      (∀ (k : Nat) (hk : k < bytes.length), s.cell k = some bytes[k]) ∧
      ∀ (i : Instr) (rest : List Byte), decode bytes = .ok (i, rest) → s.InstrAt i

/-! ### Nothing stops -/

/-- R89, R95: every instruction in every state, and every step from every state, has a next state: a fault of R85 is one,
and a read of something that holds no value goes on (log entries 7 and 13, DEDUCED). That a step in Idle, Halted or
Faulted has one rests on log entry 3 (DESIGN CHOICE: it answers the same state). The next state may be a fault entry, so
this says of no instruction that it completes; the instructions' own rules say that. With RESET_FILL = ZERO no step is
reported as the model fault either (R31), from any state that meets the invariant and so from any state the core
reaches. -/
def Obligations.EveryInstructionAndEveryStepHasANextState : Prop :=
  (∀ (i : Instr) (s : State), ∃ t, exec i s = .next t) ∧
  (∀ s : State, ∃ t, step s = .next t) ∧
  (∀ (s : State) (r : ModelFault), s.Inv → s.params.resetFill = .zero → reportedStep s ≠ .fault r) ∧
  ∀ (p : Params) (s : State) (r : ModelFault), p.resetFill = .zero → Reached p s → reportedStep s ≠ .fault r

/-- R31, R42, R95: a register or cell reads as the value it holds, and one that holds none as the free value of its place
(log entry 13). A step and every host operation but reset leave what an unwritten place reads as, so it reads the same each
time until something writes it. Of a step outside Running this rests on log entry 3 (DESIGN CHOICE). -/
def Obligations.ReadsOfNoValueGoOnWithTheSameByte : Prop :=
  (∀ (s : State) (i : Fin 8),
    (∀ v, s.regs[i] = some v → readReg s i = v) ∧
    (s.regs[i] = none → readReg s i = Config.unwrittenRegister s.boot i)) ∧
  (∀ (s : State) (a : Nat),
    (∀ v, s.cell a = some v → s.byteAt a = v) ∧ (s.cell a = none → s.byteAt a = Config.unwrittenCell s.boot a)) ∧
  (∀ s t : State, step s = .next t →
    (∀ i : Fin 8, t.regs[i] = s.regs[i] → readReg t i = readReg s i) ∧ ∀ a, t.byteAt a = s.byteAt a) ∧
  ∀ (o : HostOp) (s : State), o ≠ .reset →
    (∀ i : Fin 8, readReg (hostOp o s) i = readReg s i) ∧
    ∀ a, (hostOp o s).cell a = s.cell a → (hostOp o s).byteAt a = s.byteAt a

/-- R31, R69 to R71, R76 to R79, R95: on the hardware a read of something nothing has written returns some byte and the run
goes on with it. So every instruction does the same whatever its registers and its own bytes in memory read as (log entry
13). -/
def Obligations.InstructionsGoOnWithUnwrittenBytes : Prop :=
  (∀ (r imm : Byte) (hr : r.toNat < 8) (s : State), s.engine = .running → s.InstrRead (.ldi r imm) →
    step s = .next { s with regs := s.regs.set r.toNat (some imm), pc := s.pc + 3 }) ∧
  (∀ (r : Byte) (hr : r.toNat < 8) (s : State) (v : Byte), s.RegReads ⟨r.toNat, hr⟩ v →
    exec (.prn r) s = .next { s with out := s.out ++ [v] } ∧
    (s.engine = .running → s.InstrRead (.prn r) → step s = .next { s with out := s.out ++ [v], pc := s.pc + 2 })) ∧
  (∀ s : State, s.engine = .running → s.InstrRead .hlt →
    step s = .next { s with engine := .halted, pc := s.pc + 1 }) ∧
  AluGoesOn .mul (fun _ _ => True) (fun _ x y => BitVec.ofNat 8 (x.toNat * y.toNat)) ∧
  AluGoesOn .div (fun p y => p.divMode = .divide → y ≠ 0)
    (fun p x y => match p.divMode with
      | .multiply => BitVec.ofNat 8 (x.toNat * y.toNat)
      | .divide => BitVec.ofNat 8 (x.toNat / y.toNat)) ∧
  AluGoesOn .add (fun _ _ => True) (fun _ x y => BitVec.ofNat 8 (x.toNat + y.toNat)) ∧
  AluGoesOn .sub (fun _ _ => True) (fun _ x y => BitVec.ofInt 8 ((x.toNat : Int) - (y.toNat : Int))) ∧
  ∀ (A B : Byte) (hA : A.toNat < 8) (hB : B.toNat < 8) (s : State), s.params.divMode = .divide →
    s.RegReads ⟨B.toNat, hB⟩ 0 →
    exec (.div A B) s = .next (faultEntry s (some 0xA3) .divideByZero .memory (B.setWidth 9))

/-- R23, R89, R95: every step of a Running core, also one that reads bytes nothing has written, advances by the length of
the byte it read as its opcode, or is a fault entry that changes nothing else (log entry 13). -/
def Obligations.EveryStepAdvancesOrIsAFaultEntry : Prop :=
  ∀ s t : State, s.engine = .running → step s = .next t →
    (t.engine ≠ .faulted → t.pc.toNat = s.pc.toNat + 1 + ((s.byteAt s.pc.toNat).extractLsb' 6 2).toNat) ∧
    (t.engine = .faulted → ∃ (cause : FaultCause) (kind : FaultKind) (info : Word9),
      (256 ≤ s.pc.toNat ∧ t = faultEntry s none cause kind info) ∨
      (s.pc.toNat < 256 ∧ t = faultEntry s (some (s.byteAt s.pc.toNat)) cause kind info))
end

