-- ==== Sys2Proof/Laws/Decode.lean ====
section
/-! SUPPORT. The laws of decoding: which byte each opcode is, and how many operand bytes it counts. -/

namespace Sys2Proof

@[simp] theorem decodeOpcode_byte (o : Opcode) : decodeOpcode o.byte = some o := by cases o <;> rfl

/-- The opcode map has one byte for each opcode and no other (R53, R54). -/
theorem decodeOpcode_eq_some {op : Byte} {o : Opcode} : decodeOpcode op = some o ↔ op = o.byte := by
  constructor
  · intro h
    unfold decodeOpcode at h
    split at h <;> simp only [Option.some.injEq, reduceCtorEq] at h <;> subst h <;>
      exact BitVec.eq_of_toNat_eq (by assumption)
  · rintro rfl
    exact decodeOpcode_byte o

/-- The operand counts of the seven opcodes (R53). -/
theorem operandCount_byte (o : Opcode) :
    operandCount o.byte = match o with
      | .ldi => 2 | .prn => 1 | .hlt => 0 | .mul => 2 | .div => 2 | .add => 2 | .sub => 2 := by
  cases o <;> decide

/-- The lengths of the seven instructions (R60). -/
theorem instrLength_byte (o : Opcode) :
    instrLength o.byte = match o with
      | .ldi => 3 | .prn => 2 | .hlt => 1 | .mul => 3 | .div => 3 | .add => 3 | .sub => 3 := by
  cases o <;> decide

theorem operandCount_byte_le (o : Opcode) : operandCount o.byte ≤ 2 := by cases o <;> decide

theorem encode_eq_cons (i : Instr) : ∃ bs, encode i = i.opcode.byte :: bs ∧ bs.length = operandCount i.opcode.byte := by
  cases i <;> exact ⟨_, rfl, by simp [operandCount_byte, Instr.opcode]⟩

theorem encode_length (i : Instr) : (encode i).length = instrLength i.opcode.byte := by
  cases i <;> simp [encode, instrLength, operandCount_byte, Instr.opcode]

theorem encode_length_le (i : Instr) : (encode i).length ≤ 3 := by cases i <;> simp [encode]

@[simp] theorem opcode_withOperands (o : Opcode) (b1 b2 : Byte) : (o.withOperands b1 b2).opcode = o := by
  cases o <;> rfl

/-- The bytes of the instruction that an opcode and its fetched operand bytes make are those bytes. -/
theorem encode_withOperands {o : Opcode} {bs : List Byte} (h : bs.length = operandCount o.byte) :
    encode (o.withOperands (bs.getD 0 0) (bs.getD 1 0)) = o.byte :: bs := by
  rw [operandCount_byte] at h
  cases o <;>
    first
    | (obtain ⟨x, y, rfl⟩ := List.length_eq_two.1 h; rfl)
    | (obtain ⟨x, rfl⟩ := List.length_eq_one_iff.1 h; rfl)
    | (obtain rfl := List.length_eq_zero_iff.1 h; rfl)

end Sys2Proof
end

