-- ==== Sys2Proof/Laws/State.lean ====
section
/-! SUPPORT. What each update of the state does to each field, once, so that no later proof unfolds an update. -/

namespace Sys2Proof.Machine.State

variable (s : State) (i : Fin 8) (v : Byte) (e : EngineState) (op : Byte)

@[simp] theorem writeReg_params : (s.writeReg i v).params = s.params := rfl
@[simp] theorem writeReg_boot : (s.writeReg i v).boot = s.boot := rfl
@[simp] theorem writeReg_mem : (s.writeReg i v).mem = s.mem := rfl
@[simp] theorem writeReg_regs : (s.writeReg i v).regs = s.regs.set i (some v) := rfl
@[simp] theorem writeReg_pc : (s.writeReg i v).pc = s.pc := rfl
@[simp] theorem writeReg_engine : (s.writeReg i v).engine = s.engine := rfl
@[simp] theorem writeReg_faultRegs : (s.writeReg i v).faultRegs = s.faultRegs := rfl
@[simp] theorem writeReg_out : (s.writeReg i v).out = s.out := rfl

@[simp] theorem emit_params : (s.emit v).params = s.params := rfl
@[simp] theorem emit_boot : (s.emit v).boot = s.boot := rfl
@[simp] theorem emit_mem : (s.emit v).mem = s.mem := rfl
@[simp] theorem emit_regs : (s.emit v).regs = s.regs := rfl
@[simp] theorem emit_pc : (s.emit v).pc = s.pc := rfl
@[simp] theorem emit_engine : (s.emit v).engine = s.engine := rfl
@[simp] theorem emit_faultRegs : (s.emit v).faultRegs = s.faultRegs := rfl
@[simp] theorem emit_out : (s.emit v).out = s.out ++ [v] := rfl

@[simp] theorem setEngine_params : (s.setEngine e).params = s.params := rfl
@[simp] theorem setEngine_boot : (s.setEngine e).boot = s.boot := rfl
@[simp] theorem setEngine_mem : (s.setEngine e).mem = s.mem := rfl
@[simp] theorem setEngine_regs : (s.setEngine e).regs = s.regs := rfl
@[simp] theorem setEngine_pc : (s.setEngine e).pc = s.pc := rfl
@[simp] theorem setEngine_engine : (s.setEngine e).engine = e := rfl
@[simp] theorem setEngine_faultRegs : (s.setEngine e).faultRegs = s.faultRegs := rfl
@[simp] theorem setEngine_out : (s.setEngine e).out = s.out := rfl

@[simp] theorem advance_params : (s.advance op).params = s.params := rfl
@[simp] theorem advance_boot : (s.advance op).boot = s.boot := rfl
@[simp] theorem advance_mem : (s.advance op).mem = s.mem := rfl
@[simp] theorem advance_regs : (s.advance op).regs = s.regs := rfl
@[simp] theorem advance_pc : (s.advance op).pc = s.pc + BitVec.ofNat 9 (instrLength op) := rfl
@[simp] theorem advance_engine : (s.advance op).engine = s.engine := rfl
@[simp] theorem advance_faultRegs : (s.advance op).faultRegs = s.faultRegs := rfl
@[simp] theorem advance_out : (s.advance op).out = s.out := rfl

variable (o : Option Byte) (cause : FaultCause) (kind : FaultKind) (info : Word9)

@[simp] theorem faultEntry_params : (faultEntry s o cause kind info).params = s.params := rfl
@[simp] theorem faultEntry_boot : (faultEntry s o cause kind info).boot = s.boot := rfl
@[simp] theorem faultEntry_mem : (faultEntry s o cause kind info).mem = s.mem := rfl
@[simp] theorem faultEntry_regs : (faultEntry s o cause kind info).regs = s.regs := rfl
@[simp] theorem faultEntry_pc : (faultEntry s o cause kind info).pc = s.pc := rfl
@[simp] theorem faultEntry_engine : (faultEntry s o cause kind info).engine = .faulted := rfl
@[simp] theorem faultEntry_out : (faultEntry s o cause kind info).out = s.out := rfl
@[simp] theorem faultEntry_cause : (faultEntry s o cause kind info).faultRegs.cause = cause.code := rfl
@[simp] theorem faultEntry_kind : (faultEntry s o cause kind info).faultRegs.kind = kind.code := rfl
@[simp] theorem faultEntry_faultPc : (faultEntry s o cause kind info).faultRegs.pc = s.pc := rfl
@[simp] theorem faultEntry_opcode : (faultEntry s o cause kind info).faultRegs.opcode = o.getD 0 := rfl
@[simp] theorem faultEntry_opcodeValid :
    (faultEntry s o cause kind info).faultRegs.opcodeValid = if o.isSome then 1 else 0 := rfl
@[simp] theorem faultEntry_info : (faultEntry s o cause kind info).faultRegs.info = info := rfl

/-- The content of a cell depends on the memory and RESET_FILL alone. -/
theorem cell_congr {s t : State} (hp : s.params = t.params) (hm : s.mem = t.mem) (a : Nat) : s.cell a = t.cell a := by
  simp [State.cell, hp, hm]

@[simp] theorem writeReg_cell (a : Nat) : (s.writeReg i v).cell a = s.cell a := rfl
@[simp] theorem emit_cell (a : Nat) : (s.emit v).cell a = s.cell a := rfl
@[simp] theorem setEngine_cell (a : Nat) : (s.setEngine e).cell a = s.cell a := rfl
@[simp] theorem advance_cell (a : Nat) : (s.advance op).cell a = s.cell a := rfl
@[simp] theorem faultEntry_cell (a : Nat) : (faultEntry s o cause kind info).cell a = s.cell a := rfl

@[simp] theorem writeReg_byteAt (a : Nat) : (s.writeReg i v).byteAt a = s.byteAt a := rfl
@[simp] theorem emit_byteAt (a : Nat) : (s.emit v).byteAt a = s.byteAt a := rfl
@[simp] theorem setEngine_byteAt (a : Nat) : (s.setEngine e).byteAt a = s.byteAt a := rfl
@[simp] theorem advance_byteAt (a : Nat) : (s.advance op).byteAt a = s.byteAt a := rfl
@[simp] theorem faultEntry_byteAt (a : Nat) : (faultEntry s o cause kind info).byteAt a = s.byteAt a := rfl

/-- A cell that holds a value has that byte. -/
theorem byteAt_of_some {s : State} {a : Nat} {v : Byte} (h : s.cell a = some v) : s.byteAt a = v := by
  simp [State.byteAt, h]

end Sys2Proof.Machine.State
end

