-- ==== Sys2Proof/Laws/Memory.lean ====
section
/-! SUPPORT. The laws of the memory: what a write does to every read, and that the canonical form is kept. -/

namespace Sys2Proof.Machine.Memory

variable {fill : ResetFill}

@[simp] theorem read_nil (a : Nat) : read fill [] a = unlisted fill := rfl

theorem read_insert_self (m : Memory) (a : Nat) (v : Byte) : read fill (insert m a v) a = some v := by
  induction m with
  | nil => simp [insert, read]
  | cons c m ih =>
    simp only [insert]
    split
    · simp [read]
    · split
      · simp [read]
      · simp only [read]
        rw [if_neg (by omega), ih]

theorem read_insert_of_ne (m : Memory) {a b : Nat} (v : Byte) (h : b ≠ a) :
    read fill (insert m a v) b = read fill m b := by
  induction m with
  | nil => simp [insert, read, Ne.symm h]
  | cons c m ih =>
    simp only [insert]
    split
    · simp [read, Ne.symm h]
    · split
      · next hac => subst hac; simp [read, Ne.symm h]
      · simp [read, ih]

theorem read_erase_self (m : Memory) (a : Nat) : read fill (erase m a) a = unlisted fill := by
  induction m with
  | nil => rfl
  | cons c m ih =>
    simp only [erase]
    split
    · exact ih
    · next h => simp [read, h, ih]

theorem read_erase_of_ne (m : Memory) {a b : Nat} (h : b ≠ a) : read fill (erase m a) b = read fill m b := by
  induction m with
  | nil => rfl
  | cons c m ih =>
    simp only [erase]
    split
    · next hca => simp [read, hca, Ne.symm h, ih]
    · simp [read, ih]

/-- A read after a write to the same cell gives the value written. -/
theorem read_write_self (m : Memory) (a : Nat) (v : Byte) : read fill (write fill m a v) a = some v := by
  unfold write
  split
  · next h => rw [read_erase_self, h]
  · exact read_insert_self m a v

/-- A write leaves every other cell alone. -/
theorem read_write_of_ne (m : Memory) {a b : Nat} (v : Byte) (h : b ≠ a) :
    read fill (write fill m a v) b = read fill m b := by
  unfold write
  split
  · exact read_erase_of_ne m h
  · exact read_insert_of_ne m v h

theorem wfFrom_cons (lo : Nat) (c : Host.Cell) (m : Memory) :
    wfFrom fill lo (c :: m) = true ↔
      lo ≤ c.1 ∧ c.1 < 256 ∧ unlisted fill ≠ some c.2 ∧ wfFrom fill (c.1 + 1) m = true := by
  simp [wfFrom, and_assoc]

theorem wfFrom_mono {lo lo' : Nat} (h : lo' ≤ lo) {m : Memory} (hm : wfFrom fill lo m = true) :
    wfFrom fill lo' m = true := by
  cases m with
  | nil => rfl
  | cons c m =>
    rw [wfFrom_cons] at hm ⊢
    exact ⟨h.trans hm.1, hm.2⟩

theorem wfFrom_insert {m : Memory} {lo : Nat} {a : Nat} {v : Byte} (hlo : lo ≤ a) (ha : a < 256)
    (hv : unlisted fill ≠ some v) (hm : wfFrom fill lo m = true) : wfFrom fill lo (insert m a v) = true := by
  induction m generalizing lo with
  | nil => simp [insert, wfFrom, hlo, ha, hv]
  | cons c m ih =>
    rw [wfFrom_cons] at hm
    obtain ⟨h1, h2, h3, h4⟩ := hm
    simp only [insert]
    split
    · next h => exact (wfFrom_cons _ _ _).2 ⟨hlo, ha, hv, (wfFrom_cons _ _ _).2 ⟨h, h2, h3, h4⟩⟩
    · split
      · next h => subst h; exact (wfFrom_cons _ _ _).2 ⟨hlo, ha, hv, h4⟩
      · exact (wfFrom_cons _ _ _).2 ⟨h1, h2, h3, ih (by omega) h4⟩

theorem wfFrom_erase {m : Memory} {lo : Nat} (a : Nat) (hm : wfFrom fill lo m = true) :
    wfFrom fill lo (erase m a) = true := by
  induction m generalizing lo with
  | nil => rfl
  | cons c m ih =>
    rw [wfFrom_cons] at hm
    obtain ⟨h1, h2, h3, h4⟩ := hm
    simp only [erase]
    split
    · exact ih (wfFrom_mono (by omega) h4)
    · exact (wfFrom_cons _ _ _).2 ⟨h1, h2, h3, ih h4⟩

/-- A write to a cell in range keeps the canonical form. -/
theorem wf_write {m : Memory} {a : Nat} (v : Byte) (ha : a < 256) (hm : wf fill m = true) :
    wf fill (write fill m a v) = true := by
  unfold write
  split
  · exact wfFrom_erase a hm
  · next hv => exact wfFrom_insert (Nat.zero_le a) ha hv hm

/-- The memory after reset has the canonical form. -/
theorem wf_reset (p : Params) (boot : Nat) : wf p.resetFill (State.resetWith p boot).mem = true := rfl

/-- A cell below every listed address reads as an unlisted one. -/
theorem read_of_lt_wfFrom {m : Memory} {lo : Nat} {a : Nat} (hm : wfFrom fill lo m = true) (ha : a < lo) :
    read fill m a = unlisted fill := by
  induction m generalizing lo with
  | nil => rfl
  | cons c m ih =>
    rw [wfFrom_cons] at hm
    obtain ⟨h1, -, -, h4⟩ := hm
    simp only [read]
    rw [if_neg (by omega)]
    exact ih h4 (by omega)

end Sys2Proof.Machine.Memory

namespace Sys2Proof.Machine

theorem cell_write_self (s : State) (a : Nat) (v : Byte) :
    ({ s with mem := Memory.write s.params.resetFill s.mem a v } : State).cell a = some v :=
  Memory.read_write_self ..

theorem cell_write_of_ne (s : State) {a b : Nat} (v : Byte) (h : b ≠ a) :
    ({ s with mem := Memory.write s.params.resetFill s.mem a v } : State).cell b = s.cell b :=
  Memory.read_write_of_ne _ _ h

/-- MemWrite succeeds exactly in range, and then it is one write (R38). -/
theorem memWrite_eq_ok {s t : State} {a : Nat} {v : Byte} :
    memWrite s a v = .ok t ↔ a < 256 ∧ t = { s with mem := Memory.write s.params.resetFill s.mem a v } := by
  unfold memWrite
  split
  · next h => simp only [reduceCtorEq, false_iff, not_and]; intro h'; omega
  · next h => simp only [Except.ok.injEq, eq_comm, iff_and_self]; intro; omega

/-- MemWrite keeps the canonical form. -/
theorem memWrite_wf {s t : State} {a : Nat} {v : Byte} (h : memWrite s a v = .ok t)
    (hw : Memory.wf s.params.resetFill s.mem = true) : Memory.wf t.params.resetFill t.mem = true := by
  obtain ⟨ha, rfl⟩ := memWrite_eq_ok.1 h
  exact Memory.wf_write v ha hw

/-- Storing a sequence of bytes changes the memory only. -/
theorem storeBytes_frame {s t : State} {a : Nat} {bs : List Byte} (h : storeBytes s a bs = .ok t) :
    t = { s with mem := t.mem } := by
  induction bs generalizing s a with
  | nil => simp only [storeBytes, Except.ok.injEq] at h; subst h; rfl
  | cons b bs ih =>
    simp only [storeBytes] at h
    cases hu : memWrite s a b with
    | error e => rw [hu] at h; cases h
    | ok u =>
      rw [hu] at h
      rw [ih h, (memWrite_eq_ok.1 hu).2]

/-- Storing a sequence of bytes keeps the canonical form. -/
theorem storeBytes_wf {s t : State} {a : Nat} {bs : List Byte} (h : storeBytes s a bs = .ok t)
    (hw : Memory.wf s.params.resetFill s.mem = true) : Memory.wf t.params.resetFill t.mem = true := by
  induction bs generalizing s a with
  | nil => simp only [storeBytes, Except.ok.injEq] at h; subst h; exact hw
  | cons b bs ih =>
    simp only [storeBytes] at h
    cases hu : memWrite s a b with
    | error e => rw [hu] at h; cases h
    | ok u => rw [hu] at h; exact ih h (memWrite_wf hu hw)

/-- A sequence of bytes that fits is stored: each byte in its cell, every other cell as before. -/
theorem storeBytes_spec (bs : List Byte) (s : State) (a : Nat) (h : a + bs.length ≤ 256) :
    ∃ t, storeBytes s a bs = .ok t ∧ (∀ k (hk : k < bs.length), t.cell (a + k) = some bs[k]) ∧
      ∀ b, b < a ∨ a + bs.length ≤ b → t.cell b = s.cell b := by
  induction bs generalizing s a with
  | nil => exact ⟨s, rfl, fun k hk => absurd hk (by simp), fun _ _ => rfl⟩
  | cons v bs ih =>
    simp only [List.length_cons] at h
    obtain ⟨t, ht, h1, h2⟩ := ih { s with mem := Memory.write s.params.resetFill s.mem a v } (a + 1) (by omega)
    refine ⟨t, ?_, ?_, ?_⟩
    · simp only [storeBytes, memWrite]; rw [if_neg (by omega)]; exact ht
    · intro k hk
      cases k with
      | zero => rw [h2 (a + 0) (by omega)]; exact cell_write_self s a v
      | succ k =>
        have := h1 k (by simpa using hk)
        simpa [Nat.add_assoc, Nat.add_comm 1 k] using this
    · intro b hb
      simp only [List.length_cons] at hb
      rw [h2 b (by omega)]; exact cell_write_of_ne s v (by omega)

end Sys2Proof.Machine
end

