-- ==== Sys2Proof/Laws/Ops.lean ====
section
/-! SUPPORT. One lemma for everything each shared operation, the execute part and the instruction cycle can do. -/

namespace Sys2Proof.Machine

/-! ### Reading memory, registers and operands -/

theorem memRead_of_lt {s : State} {a : Nat} (h : a < 256) : memRead s a = .ok (s.byteAt a) := if_neg (by omega)

theorem memRead_of_ge {s : State} {a : Nat} (h : 256 ≤ a) :
    memRead s a = .error ⟨.outOfRangeAccess, .memory, BitVec.ofNat 9 a⟩ := if_pos h

theorem memRead_ok {s : State} {a : Nat} {v : Byte} : memRead s a = .ok v ↔ a < 256 ∧ s.byteAt a = v := by
  unfold memRead; split
  · simp only [reduceCtorEq, false_iff]; omega
  · simp only [Except.ok.injEq, iff_and_self]; omega

theorem memRead_error {s : State} {a : Nat} {e : Raise} :
    memRead s a = .error e ↔ 256 ≤ a ∧ e = ⟨.outOfRangeAccess, .memory, BitVec.ofNat 9 a⟩ := by
  unfold memRead; split
  · simp_all [eq_comm]
  · simp only [reduceCtorEq, false_iff]; omega

theorem regIndex_of_lt {b : Byte} (h : b.toNat < 8) : regIndex b = .ok ⟨b.toNat, h⟩ := dif_pos h

theorem regIndex_of_ge {b : Byte} (h : 8 ≤ b.toNat) :
    regIndex b = .error ⟨.outOfRangeAccess, .register, b.setWidth 9⟩ := dif_neg (by omega)

/-- What a register reads as is the value it holds, or the free value of its index. -/
theorem regReads_iff {s : State} {i : Fin 8} {x : Byte} : s.RegReads i x ↔ readReg s i = x := by
  unfold readReg State.RegReads
  cases s.regs[i] <;> simp [eq_comm]

theorem regReads_readReg (s : State) (i : Fin 8) : s.RegReads i (readReg s i) := regReads_iff.2 rfl

@[simp] theorem ok_bind {α β : Type} (a : α) (f : α → Except Raise β) : (Except.ok a >>= f) = f a := rfl

@[simp] theorem error_bind {α β : Type} (e : Raise) (f : α → Except Raise β) :
    ((Except.error e : Except Raise α) >>= f) = .error e := rfl

@[simp] theorem pure_eq_ok {α : Type} (a : α) : (pure a : Except Raise α) = .ok a := rfl

/-- A chain of operations succeeds exactly when each does. -/
theorem bind_eq_ok {α β : Type} {x : Except Raise α} {f : α → Except Raise β} {b : β} :
    (x >>= f) = .ok b ↔ ∃ a, x = .ok a ∧ f a = .ok b := by
  cases x <;> simp

/-- A chain of operations stops at its first part that does. -/
theorem bind_eq_error {α β : Type} {x : Except Raise α} {f : α → Except Raise β} {e : Raise} :
    (x >>= f) = .error e ↔ x = .error e ∨ ∃ a, x = .ok a ∧ f a = .error e := by
  cases x <;> simp

/-- The fetched bytes are the cells from the first address up, all in range. -/
theorem fetchBytes_ok {s : State} {a n : Nat} {bs : List Byte} :
    fetchBytes s a n = .ok bs ↔
      bs.length = n ∧ ∀ k (h : k < bs.length), a + k < 256 ∧ s.byteAt (a + k) = bs[k] := by
  induction n generalizing a bs with
  | zero =>
    simp only [fetchBytes, Except.ok.injEq, List.length_eq_zero_iff]
    constructor
    · rintro rfl; exact ⟨rfl, fun k h => absurd h (by simp)⟩
    · rintro ⟨rfl, -⟩; rfl
  | succ n ih =>
    simp only [fetchBytes, bind_eq_ok, memRead_ok, ih, pure_eq_ok, Except.ok.injEq]
    constructor
    · rintro ⟨b, hb, cs, ⟨hlen, hcs⟩, rfl⟩
      refine ⟨by simp [hlen], fun k hk => ?_⟩
      cases k with
      | zero => exact hb
      | succ k =>
        have := hcs k (by simpa using hk)
        simpa [Nat.add_assoc, Nat.add_comm 1 k] using this
    · rintro ⟨hlen, h⟩
      cases bs with
      | nil => simp at hlen
      | cons b cs =>
        refine ⟨b, h 0 (by simp), cs, ⟨by simpa using hlen, fun k hk => ?_⟩, rfl⟩
        have := h (k + 1) (by simpa using hk)
        simpa [Nat.add_assoc, Nat.add_comm 1 k] using this

/-- A failed fetch failed at one address, every earlier one having been in range. -/
theorem fetchBytes_error {s : State} {a n : Nat} {e : Raise} :
    fetchBytes s a n = .error e →
      ∃ k, k < n ∧ memRead s (a + k) = .error e ∧ ∀ j, j < k → a + j < 256 := by
  induction n generalizing a with
  | zero => simp [fetchBytes]
  | succ n ih =>
    simp only [fetchBytes, bind_eq_error, memRead_ok]
    rintro (h | ⟨b, hb, h | ⟨cs, -, h⟩⟩)
    · exact ⟨0, by omega, h, fun j hj => absurd hj (by omega)⟩
    · obtain ⟨k, hk, hr, hj⟩ := ih h
      refine ⟨k + 1, by omega, by simpa [Nat.add_assoc, Nat.add_comm 1 k] using hr, fun j hjk => ?_⟩
      cases j with
      | zero => exact hb.1
      | succ j =>
        have := hj j (by omega)
        simpa [Nat.add_assoc, Nat.add_comm 1 j] using this
    · simp at h

/-- An operand byte is an index below 8, or it raises. -/
theorem regIndex_cases (b : Byte) :
    (∃ h : b.toNat < 8, regIndex b = .ok ⟨b.toNat, h⟩) ∨
      (8 ≤ b.toNat ∧ regIndex b = .error ⟨.outOfRangeAccess, .register, b.setWidth 9⟩) := by
  by_cases h : b.toNat < 8
  · exact .inl ⟨h, regIndex_of_lt h⟩
  · exact .inr ⟨by omega, regIndex_of_ge (by omega)⟩

/-! ### The execute parts -/

/-- Everything ExecuteALU can do (R75). -/
theorem executeAlu_cases (kind : AluKind) (A B : Byte) (s : State) :
    (∃ (hA : A.toNat < 8) (hB : B.toNat < 8),
      dividesByZero s.params.divMode kind (readReg s ⟨B.toNat, hB⟩) = false ∧
      executeAlu kind A B s = .ok (s.writeReg ⟨A.toNat, hA⟩
        (alu s.params.divMode kind (readReg s ⟨A.toNat, hA⟩) (readReg s ⟨B.toNat, hB⟩)))) ∨
    (8 ≤ A.toNat ∧ executeAlu kind A B s = .error ⟨.outOfRangeAccess, .register, A.setWidth 9⟩) ∨
    (A.toNat < 8 ∧ 8 ≤ B.toNat ∧ executeAlu kind A B s = .error ⟨.outOfRangeAccess, .register, B.setWidth 9⟩) ∨
    (∃ (_ : A.toNat < 8) (hB : B.toNat < 8),
      dividesByZero s.params.divMode kind (readReg s ⟨B.toNat, hB⟩) = true ∧
      executeAlu kind A B s = .error ⟨.divideByZero, .memory, B.setWidth 9⟩) := by
  unfold executeAlu
  obtain ⟨hA, eA⟩ | ⟨hA, eA⟩ := regIndex_cases A
  · obtain ⟨hB, eB⟩ | ⟨hB, eB⟩ := regIndex_cases B
    · cases hz : dividesByZero s.params.divMode kind (readReg s ⟨B.toNat, hB⟩) with
      | false => exact .inl ⟨hA, hB, hz, by simp [eA, eB, hz]⟩
      | true => exact .inr (.inr (.inr ⟨hA, hB, hz, by simp [eA, eB, hz]⟩))
    · exact .inr (.inr (.inl ⟨hA, hB, by simp [eA, eB]⟩))
  · exact .inr (.inl ⟨hA, by simp [eA]⟩)

/-- Only a divide in DIVIDE mode divides by zero. -/
theorem dividesByZero_eq_true {mode : DivMode} {kind : AluKind} {b : Byte} :
    dividesByZero mode kind b = true ↔ kind = .div ∧ mode = .divide ∧ b = 0 := by
  simp [dividesByZero, and_assoc]

/-- What the four ALU instructions are. -/
theorem exec_alu {i : Instr} {kind : AluKind} {A B : Byte}
    (h : (i = .mul A B ∧ kind = .mul) ∨ (i = .div A B ∧ kind = .div) ∨ (i = .add A B ∧ kind = .add) ∨
      (i = .sub A B ∧ kind = .sub)) (s : State) :
    exec i s = concluded s i.opcode.byte (executeAlu kind A B s) := by
  rcases h with ⟨rfl, rfl⟩ | ⟨rfl, rfl⟩ | ⟨rfl, rfl⟩ | ⟨rfl, rfl⟩ <;> rfl

/-- The faults an execute part raises (R87, R91): a register byte out of range, or a divide by zero. -/
def RaisedBy (i : Instr) (s : State) (cause : FaultCause) (kind : FaultKind) (info : Word9) : Prop :=
  (cause = .outOfRangeAccess ∧ kind = .register ∧ ∃ b ∈ registerBytes i, 8 ≤ b.toNat ∧ info = b.setWidth 9) ∨
  (cause = .divideByZero ∧ kind = .memory ∧ s.params.divMode = .divide ∧
    ∃ A B : Byte, i = .div A B ∧ info = B.setWidth 9 ∧
      ∃ (_ : A.toNat < 8) (hB : B.toNat < 8), s.RegReads ⟨B.toNat, hB⟩ 0)

/-- What an execute part can do: write its destination, emit, halt, or raise a fault. -/
def ExecCases (i : Instr) (s : State) : Prop :=
  (∃ (d : Byte) (hd : d.toNat < 8) (v : Byte), destination i = some d ∧
    exec i s = .next (s.writeReg ⟨d.toNat, hd⟩ v)) ∨
  (∃ (r : Byte) (hr : r.toNat < 8) (v : Byte), i = .prn r ∧ s.RegReads ⟨r.toNat, hr⟩ v ∧
    exec i s = .next (s.emit v)) ∨
  (i = .hlt ∧ exec i s = .next (s.setEngine .halted)) ∨
  (∃ cause kind info, RaisedBy i s cause kind info ∧
    exec i s = .next (faultEntry s (some i.opcode.byte) cause kind info))

/-- Everything the execute part of an ALU instruction can do. -/
theorem exec_alu_cases {i : Instr} {kind : AluKind} {A B : Byte}
    (hi : (i = .mul A B ∧ kind = .mul) ∨ (i = .div A B ∧ kind = .div) ∨ (i = .add A B ∧ kind = .add) ∨
      (i = .sub A B ∧ kind = .sub)) (s : State) : ExecCases i s := by
  have he := exec_alu hi s
  have hd : destination i = some A := by rcases hi with ⟨rfl, -⟩ | ⟨rfl, -⟩ | ⟨rfl, -⟩ | ⟨rfl, -⟩ <;> rfl
  have hr : registerBytes i = [A, B] := by rcases hi with ⟨rfl, -⟩ | ⟨rfl, -⟩ | ⟨rfl, -⟩ | ⟨rfl, -⟩ <;> rfl
  obtain ⟨hA, hB, hz, e⟩ | ⟨hA, e⟩ | ⟨hA, hB, e⟩ | ⟨hA, hB, hz, e⟩ := executeAlu_cases kind A B s
  · exact .inl ⟨A, hA, _, hd, by rw [he, e]; rfl⟩
  · exact .inr (.inr (.inr ⟨_, _, _, .inl ⟨rfl, rfl, A, by simp [hr], hA, rfl⟩, by rw [he, e]; rfl⟩))
  · exact .inr (.inr (.inr ⟨_, _, _, .inl ⟨rfl, rfl, B, by simp [hr], hB, rfl⟩, by rw [he, e]; rfl⟩))
  · obtain ⟨hk, hm, h0⟩ := dividesByZero_eq_true.1 hz
    subst hk
    have hi' : i = .div A B := by rcases hi with ⟨-, h⟩ | ⟨h, -⟩ | ⟨-, h⟩ | ⟨-, h⟩ <;> first | exact h | cases h
    exact .inr (.inr (.inr ⟨_, _, _, .inr ⟨rfl, rfl, hm, A, B, hi', rfl, hA, hB, regReads_iff.2 h0⟩, by rw [he, e]; rfl⟩))

/-- Everything the execute part of an instruction can do. -/
theorem exec_cases (i : Instr) (s : State) : ExecCases i s := by
  cases i with
  | ldi r imm =>
    obtain ⟨hr, er⟩ | ⟨hr, er⟩ := regIndex_cases r
    · exact .inl ⟨r, hr, imm, rfl, by simp [exec, execLdi, executeLdi, er, concluded, immediate]⟩
    · exact .inr (.inr (.inr ⟨_, _, _, .inl ⟨rfl, rfl, r, by simp [registerBytes], hr, rfl⟩,
        by simp [exec, execLdi, executeLdi, er, concluded, raised, Instr.opcode]⟩))
  | prn r =>
    obtain ⟨hr, er⟩ | ⟨hr, er⟩ := regIndex_cases r
    · exact .inr (.inl ⟨r, hr, _, rfl, regReads_readReg s _, by simp [exec, execPrn, executePrn, er, concluded]⟩)
    · exact .inr (.inr (.inr ⟨_, _, _, .inl ⟨rfl, rfl, r, by simp [registerBytes], hr, rfl⟩,
        by simp [exec, execPrn, executePrn, er, concluded, raised, Instr.opcode]⟩))
  | hlt => exact .inr (.inr (.inl ⟨rfl, rfl⟩))
  | mul a b => exact exec_alu_cases (kind := .mul) (A := a) (B := b) (by simp) s
  | div a b => exact exec_alu_cases (kind := .div) (A := a) (B := b) (by simp) s
  | add a b => exact exec_alu_cases (kind := .add) (A := a) (B := b) (by simp) s
  | sub a b => exact exec_alu_cases (kind := .sub) (A := a) (B := b) (by simp) s

/-! ### The cycle -/

/-- An instruction whose bytes are written at the program counter is the one a step reads there. -/
theorem instrRead_of_instrAt {s : State} {i : Instr} (h : s.InstrAt i) : s.InstrRead i :=
  fun k => ⟨(h k).1, State.byteAt_of_some (h k).2⟩

/-- The operand fetch of the instruction at the program counter gives its operand bytes. -/
theorem fetch_of_instrRead {s : State} {i : Instr} (h : s.InstrRead i) :
    ∃ bs, fetchBytes s (s.pc.toNat + 1) (operandCount i.opcode.byte) = .ok bs ∧
      i.opcode.withOperands (bs.getD 0 0) (bs.getD 1 0) = i := by
  obtain ⟨bs, he, hlen⟩ := encode_eq_cons i
  refine ⟨bs, fetchBytes_ok.2 ⟨hlen, fun k hk => ?_⟩, ?_⟩
  · have := h ⟨k + 1, by simp [he, hk]⟩
    simpa [he, Nat.add_assoc, Nat.add_comm 1 k] using this
  · cases i <;> simp only [encode, Instr.opcode, List.cons.injEq, true_and] at he <;> subst he <;> rfl

/-- Fetched bytes are an instruction at the program counter. -/
theorem instrRead_of_fetch {s : State} {o : Opcode} {bs : List Byte} (hpc : s.pc.toNat < 256)
    (hc : s.byteAt s.pc.toNat = o.byte) (hb : fetchBytes s (s.pc.toNat + 1) (operandCount o.byte) = .ok bs) :
    s.InstrRead (o.withOperands (bs.getD 0 0) (bs.getD 1 0)) := by
  obtain ⟨hlen, hbs⟩ := fetchBytes_ok.1 hb
  have henc := encode_withOperands hlen
  rintro ⟨k, hk⟩
  simp only [henc, Fin.getElem_fin]
  cases k with
  | zero => exact ⟨hpc, hc⟩
  | succ k =>
    have hk' : k < bs.length := by rw [henc] at hk; simpa using hk
    simpa [Nat.add_assoc, Nat.add_comm 1 k] using hbs k hk'

/-- The opcode byte of the instruction at the program counter. -/
theorem instrRead_pc {s : State} {i : Instr} (h : s.InstrRead i) :
    s.pc.toNat < 256 ∧ s.byteAt s.pc.toNat = i.opcode.byte := by
  have := h ⟨0, by cases i <;> simp [encode]⟩
  refine ⟨by simpa using this.1, ?_⟩
  have h2 := this.2
  cases i <;> simpa [encode, Instr.opcode] using h2

/-- When an instruction's bytes stand at the program counter, the cycle runs its execute part and advances. -/
theorem cycle_of_instrRead {s : State} {i : Instr} (h : s.InstrRead i) :
    cycle s = advanced i.opcode.byte (exec i s) := by
  obtain ⟨bs, hb, hi⟩ := fetch_of_instrRead h
  have h0 : memRead s s.pc.toNat = .ok i.opcode.byte := memRead_ok.2 (instrRead_pc h)
  simp only [cycle, h0, decodeOpcode_byte, hb, hi]

/-- Everything the instruction cycle can do: one of its three checks stops it, or an instruction stands at the program
counter and runs (R62, R93). -/
theorem cycle_cases (s : State) :
    (256 ≤ s.pc.toNat ∧ cycle s = .next (faultEntry s none .outOfRangeAccess .memory s.pc)) ∨
    (∃ op, s.pc.toNat < 256 ∧ s.byteAt s.pc.toNat = op ∧ decodeOpcode op = none ∧
      cycle s = .next (faultEntry s (some op) .unknownInstruction .memory (op.setWidth 9))) ∨
    (∃ o : Opcode, s.pc.toNat < 256 ∧ s.byteAt s.pc.toNat = o.byte ∧ 256 ≤ s.pc.toNat + operandCount o.byte ∧
      cycle s = .next (faultEntry s (some o.byte) .outOfRangeAccess .memory 256)) ∨
    (∃ i : Instr, s.InstrRead i ∧ cycle s = advanced i.opcode.byte (exec i s)) := by
  cases h0 : memRead s s.pc.toNat with
  | error e =>
    obtain ⟨hpc, rfl⟩ := memRead_error.1 h0
    refine .inl ⟨hpc, ?_⟩
    simp only [cycle, h0, raised, BitVec.ofNat_toNat, BitVec.setWidth_eq]
  | ok op =>
    obtain ⟨hpc, hc⟩ := memRead_ok.1 h0
    cases hd : decodeOpcode op with
    | none => exact .inr (.inl ⟨op, hpc, hc, hd, by simp only [cycle, h0, hd, raised]⟩)
    | some o =>
      obtain rfl := decodeOpcode_eq_some.1 hd
      cases hb : fetchBytes s (s.pc.toNat + 1) (operandCount o.byte) with
      | error e =>
        obtain ⟨k, hk, hr, hj⟩ := fetchBytes_error hb
        obtain ⟨hge, rfl⟩ := memRead_error.1 hr
        have h256 : s.pc.toNat + 1 + k = 256 := by
          cases k with
          | zero => omega
          | succ k => have := hj k (by omega); omega
        refine .inr (.inr (.inl ⟨o, hpc, hc, by omega, ?_⟩))
        simp only [cycle, h0, hd, hb, raised, h256]; rfl
      | ok bs =>
        exact .inr (.inr (.inr ⟨_, instrRead_of_fetch hpc hc hb, by simp only [cycle, h0, hd, hb, opcode_withOperands]⟩))

/-- Placing an instruction for the fetch keeps the canonical form. -/
theorem placeBytes_wf {s : State} {a : Nat} {bs : List Byte} (hw : Memory.wf s.params.resetFill s.mem = true) :
    Memory.wf (s.placeBytes a bs).params.resetFill (s.placeBytes a bs).mem = true := by
  induction bs generalizing s a with
  | nil => exact hw
  | cons b bs ih =>
    simp only [State.placeBytes]
    split
    · next t h => exact ih (memWrite_wf h hw)
    · exact hw

theorem step_running {s : State} (h : s.engine = .running) : step s = cycle s := if_pos h

theorem step_not_running {s : State} (h : s.engine ≠ .running) : step s = .next s := if_neg h

/-- Every operand byte of the instruction at the program counter is in range. -/
theorem instrRead_operand {s : State} {i : Instr} (h : s.InstrRead i) {k : Nat} (hk : k ≤ operandCount i.opcode.byte) :
    s.pc.toNat + k < 256 :=
  (h ⟨k, by rw [encode_length]; simp [instrLength]; omega⟩).1

/-- The instruction at the program counter ends at address 255 at the latest. -/
theorem instrRead_end {s : State} {i : Instr} (h : s.InstrRead i) : s.pc.toNat + instrLength i.opcode.byte ≤ 256 := by
  have := instrRead_operand h (k := operandCount i.opcode.byte) le_rfl
  simp [instrLength]; omega

/-- So the advance past it is exact: the program counter does not wrap (R24). -/
theorem advance_toNat {s : State} {i : Instr} (h : s.InstrRead i) :
    (s.pc + BitVec.ofNat 9 (instrLength i.opcode.byte)).toNat = s.pc.toNat + instrLength i.opcode.byte := by
  have := instrRead_end h
  rw [BitVec.toNat_add, BitVec.toNat_ofNat]; omega

/-- A step whose execute part completes without a fault is that part and the advance. -/
theorem step_of_exec_next {s t : State} {i : Instr} (hr : s.engine = .running) (hi : s.InstrRead i)
    (h : exec i s = .next t) (he : t.engine ≠ .faulted) : step s = .next (t.advance i.opcode.byte) := by
  rw [step_running hr, cycle_of_instrRead hi, h]; simp [advanced, he]

/-- Everything a step of a Running core did. -/
theorem step_next_cases {s t : State} (hr : s.engine = .running) (h : step s = .next t) :
    (256 ≤ s.pc.toNat ∧ t = faultEntry s none .outOfRangeAccess .memory s.pc) ∨
    (∃ op, s.pc.toNat < 256 ∧ s.byteAt s.pc.toNat = op ∧ decodeOpcode op = none ∧
      t = faultEntry s (some op) .unknownInstruction .memory (op.setWidth 9)) ∨
    (∃ o : Opcode, s.pc.toNat < 256 ∧ s.byteAt s.pc.toNat = o.byte ∧ 256 ≤ s.pc.toNat + operandCount o.byte ∧
      t = faultEntry s (some o.byte) .outOfRangeAccess .memory 256) ∨
    (∃ i cause kind info, s.InstrRead i ∧ RaisedBy i s cause kind info ∧ exec i s = .next t ∧
      t = faultEntry s (some i.opcode.byte) cause kind info) ∨
    (∃ (i : Instr) (d : Byte) (hd : d.toNat < 8) (v : Byte), s.InstrRead i ∧ destination i = some d ∧
      t = (s.writeReg ⟨d.toNat, hd⟩ v).advance i.opcode.byte) ∨
    (∃ (r : Byte) (hr : r.toNat < 8) (v : Byte), s.InstrRead (.prn r) ∧ s.RegReads ⟨r.toNat, hr⟩ v ∧
      t = (s.emit v).advance (Instr.prn r).opcode.byte) ∨
    (s.InstrRead .hlt ∧ t = (s.setEngine .halted).advance Instr.hlt.opcode.byte) := by
  rw [step_running hr] at h
  obtain ⟨hp, e⟩ | ⟨op, hp, hc, hd, e⟩ | ⟨o, hp, hc, hk, e⟩ | ⟨i, hi, e⟩ := cycle_cases s <;> rw [e] at h
  · cases h; exact .inl ⟨hp, rfl⟩
  · cases h; exact .inr (.inl ⟨op, hp, hc, hd, rfl⟩)
  · cases h; exact .inr (.inr (.inl ⟨o, hp, hc, hk, rfl⟩))
  · obtain ⟨d, hd, v, h1, e2⟩ | ⟨r, hr', v, rfl, h2, e2⟩ | ⟨rfl, e2⟩ | ⟨c, k, n, h1, e2⟩ := exec_cases i s <;>
      rw [e2] at h
    · refine .inr (.inr (.inr (.inr (.inl ⟨i, d, hd, v, hi, h1, ?_⟩))))
      simpa [advanced, hr, eq_comm] using h
    · refine .inr (.inr (.inr (.inr (.inr (.inl ⟨r, hr', v, hi, h2, ?_⟩)))))
      simpa [advanced, hr, eq_comm] using h
    · refine .inr (.inr (.inr (.inr (.inr (.inr ⟨hi, ?_⟩)))))
      simpa [advanced, eq_comm] using h
    · have : t = faultEntry s (some i.opcode.byte) c k n := by simpa [advanced, eq_comm] using h
      exact .inr (.inr (.inr (.inl ⟨i, c, k, n, hi, h1, by rw [e2, this], this⟩)))

/-! ### The model outcome of R95 -/

/-- A fetch meets a cell without a value exactly when one of its cells has none, all cells up to it in range. -/
theorem cellsHoldNoValue_iff {s : State} {a n : Nat} :
    cellsHoldNoValue s a n = true ↔ ∃ k, k < n ∧ a + k < 256 ∧ s.cell (a + k) = none := by
  induction n generalizing a with
  | zero => simp [cellsHoldNoValue]
  | succ n ih =>
    simp only [cellsHoldNoValue, Bool.and_eq_true, decide_eq_true_eq, Bool.or_eq_true, Option.isNone_iff_eq_none, ih]
    constructor
    · rintro ⟨ha, hn | ⟨k, hk, h1, h2⟩⟩
      · exact ⟨0, by omega, ha, hn⟩
      · exact ⟨k + 1, by omega, by omega, by rwa [show a + (k + 1) = a + 1 + k by omega]⟩
    · rintro ⟨k, hk, h1, h2⟩
      cases k with
      | zero => exact ⟨h1, .inl h2⟩
      | succ k => exact ⟨by omega, .inr ⟨k, by omega, by omega, by rwa [show a + 1 + k = a + (k + 1) by omega]⟩⟩

theorem registerHoldsNoValue_iff {s : State} {b : Byte} :
    registerHoldsNoValue s b = true ↔ ∃ _ : b.toNat < 8, s.regs[b.toNat] = none := by
  unfold registerHoldsNoValue
  obtain ⟨h, e⟩ | ⟨h, e⟩ := regIndex_cases b <;> rw [e]
  · simp [h]
  · simp only [Bool.false_eq_true, false_iff]; rintro ⟨h', -⟩; omega

theorem sourcesHoldNoValue_iff {s : State} {i : Instr} : sourcesHoldNoValue s i = true ↔
    (∀ b ∈ registerBytes i, b.toNat < 8) ∧ ∃ b ∈ sourceBytes i, ∃ _ : b.toNat < 8, s.regs[b.toNat] = none := by
  simp [sourcesHoldNoValue, registerHoldsNoValue_iff, isRegByte]

/-- A step reads something that holds no value exactly when its opcode cell, an operand cell in range, or a source register
of the instruction at the program counter holds none (R95). -/
theorem readsNoValue_iff {s : State} : readsNoValue s = true ↔
    (s.pc.toNat < 256 ∧ s.cell s.pc.toNat = none) ∨
    (∃ (o : Opcode) (k : Nat), s.byteAt s.pc.toNat = o.byte ∧ 1 ≤ k ∧ k ≤ operandCount o.byte ∧
      s.pc.toNat + k < 256 ∧ s.cell (s.pc.toNat + k) = none) ∨
    (∃ i : Instr, s.InstrRead i ∧ sourcesHoldNoValue s i = true) := by
  have one : cellsHoldNoValue s s.pc.toNat 1 = true ↔ s.pc.toNat < 256 ∧ s.cell s.pc.toNat = none := by
    simp [cellsHoldNoValue]
  simp only [readsNoValue, Bool.or_eq_true, one]
  refine or_congr_right ?_
  cases h0 : memRead s s.pc.toNat with
  | error e =>
    have hpc := (memRead_error.1 h0).1
    simp only [Bool.false_eq_true, false_iff, not_or]
    refine ⟨?_, ?_⟩
    · rintro ⟨o, k, -, -, -, h, -⟩; omega
    · rintro ⟨i, hi, -⟩; have := (instrRead_pc hi).1; omega
  | ok op =>
    obtain ⟨hpc, hc⟩ := memRead_ok.1 h0
    cases hd : decodeOpcode op with
    | none =>
      simp only [hd, Bool.false_eq_true, false_iff, not_or]
      refine ⟨?_, ?_⟩
      · rintro ⟨o, k, h, -⟩; rw [hc] at h; simp [h] at hd
      · rintro ⟨i, hi, -⟩; have := (instrRead_pc hi).2; rw [hc] at this; simp [this] at hd
    | some o =>
      obtain rfl := decodeOpcode_eq_some.1 hd
      simp only [hd, Bool.or_eq_true, cellsHoldNoValue_iff]
      refine or_congr ?_ ?_
      · constructor
        · rintro ⟨k, hk, h1, h2⟩
          exact ⟨o, k + 1, hc, by omega, by omega, by omega, by rwa [show s.pc.toNat + (k + 1) = s.pc.toNat + 1 + k by omega]⟩
        · rintro ⟨o', k, ho, hk, hk', h1, h2⟩
          rw [hc] at ho; rw [← ho] at hk'
          exact ⟨k - 1, by omega, by omega, by rwa [show s.pc.toNat + 1 + (k - 1) = s.pc.toNat + k by omega]⟩
      · have cyc : ∀ i : Instr, s.InstrRead i → ∃ bs, fetchBytes s (s.pc.toNat + 1) (operandCount o.byte) = .ok bs ∧
            o.withOperands (bs.getD 0 0) (bs.getD 1 0) = i := by
          intro i hi
          obtain ⟨bs, hb, he⟩ := fetch_of_instrRead hi
          have ho : o = i.opcode := by
            have h := (instrRead_pc hi).2
            rw [hc] at h
            simpa using congrArg decodeOpcode h
          exact ⟨bs, by rw [ho]; exact hb, by rw [ho]; exact he⟩
        cases hb : fetchBytes s (s.pc.toNat + 1) (operandCount o.byte) with
        | error e =>
          simp only [Bool.false_eq_true, false_iff]
          rintro ⟨i, hi, -⟩
          obtain ⟨bs, h, -⟩ := cyc i hi
          rw [hb] at h; cases h
        | ok bs =>
          constructor
          · intro h
            exact ⟨_, instrRead_of_fetch hpc hc hb, h⟩
          · rintro ⟨i, hi, h⟩
            obtain ⟨cs, h1, h2⟩ := cyc i hi
            rw [hb] at h1; cases h1
            rw [← h2] at h
            exact h

/-- What is reported of a step is the model fault, or what the step answers. -/
theorem reportedStep_cases (s : State) :
    (s.engine = .running ∧ readsNoValue s = true ∧ reportedStep s = .fault (.uninitRead s.pc)) ∨
    ((s.engine = .running → readsNoValue s = false) ∧ ∀ t, reportedStep s = .next t ↔ step s = .next t) := by
  unfold reportedStep
  split
  · next h => exact .inl ⟨h.1, h.2, rfl⟩
  · next h =>
    refine .inr ⟨fun hr => by simpa [hr] using h, fun t => ?_⟩
    cases step s with
    | next u => simp
    | fault r => cases r
    | refused r => simp

/-- The model fault is reported exactly of a Running core whose step reads something that holds no value (R95). -/
theorem reportedStep_fault {s : State} {r : ModelFault} :
    reportedStep s = .fault r ↔ s.engine = .running ∧ readsNoValue s = true ∧ r = .uninitRead s.pc := by
  obtain ⟨h1, h2, h3⟩ | ⟨h1, h2⟩ := reportedStep_cases s
  · rw [h3]; simp [h1, h2, eq_comm]
  · constructor
    · intro h
      unfold reportedStep at h
      split at h
      · next h' => exact absurd (h1 h'.1) (by simp [h'.2])
      · split at h <;> first | cases h | exact nomatch ‹Fault›
    · rintro ⟨a, b, -⟩; rw [h1 a] at b; cases b

end Sys2Proof.Machine
end

