-- ==== Sys2Proof/Laws/PerInstr.lean ====
section
/-! SUPPORT. What holds of each instruction as syntax: the length of its encoding is the one its opcode byte counts
(R51, R60). -/

namespace Sys2Proof.Laws.EncodedLength

/-- The encoding begins with the opcode byte and is 1 + opcode[7:6] bytes long. -/
def Statement (i : Instr) : Prop :=
  (encode i).head? = some i.opcode.byte ∧ (encode i).length = instrLength i.opcode.byte

theorem ldi (r imm : Byte) : Statement (.ldi r imm) := ⟨rfl, encode_length _⟩
theorem prn (r : Byte) : Statement (.prn r) := ⟨rfl, encode_length _⟩
theorem hlt : Statement .hlt := ⟨rfl, encode_length _⟩
theorem mul (a b : Byte) : Statement (.mul a b) := ⟨rfl, encode_length _⟩
theorem div (a b : Byte) : Statement (.div a b) := ⟨rfl, encode_length _⟩
theorem add (a b : Byte) : Statement (.add a b) := ⟨rfl, encode_length _⟩
theorem sub (a b : Byte) : Statement (.sub a b) := ⟨rfl, encode_length _⟩

end Sys2Proof.Laws.EncodedLength
end

