-- ==== Sys2Proof/Tests/Slice0.lean ====
section
/-! SUPPORT. The model's own tests. Expected results are those of spec/95_test_vectors.md (the vector's name stands before
each) or of the encodings of 30_encoding.md; the witnesses show that the hypotheses of each statement can be met. -/

namespace Sys2Proof.Tests

open Sys2Proof.Machine

/-! ### Small states and what a step gives -/

/-- DIV_MODE = MULTIPLY and RESET_FILL = UNDEFINED, the vectors' defaults. -/
def mulMode : Params := ⟨.multiply, .undefined⟩

/-- DIV_MODE = DIVIDE and RESET_FILL = UNDEFINED. -/
def divideMode : Params := ⟨.divide, .undefined⟩

/-- A Running core with `bytes` from `pc` up, `x0` in R0, `x1` in R1 and no value in any other register. -/
def demo (p : Params) (pc : Word9) (bytes : List Byte) (x0 x1 : Option Byte) : State :=
  { (State.resetWith p 0).placeBytes pc.toNat bytes with
    pc := pc, engine := .running, regs := #v[x0, x1, none, none, none, none, none, none] }

def nextOf : Host.Outcome State Fault Refusal → Option State
  | .next t => some t
  | .fault _ => none
  | .refused _ => none

/-- The model fault a step is reported as (R95). -/
def reportedFault (s : State) : Option ModelFault :=
  match reportedStep s with
  | .next _ => none
  | .fault r => some r
  | .refused _ => none

/-- The fields a vector names, after a step: R0, R1, `pc`, the engine state. -/
def seen (s : State) : Option (Option Byte × Option Byte × Word9 × EngineState) :=
  (nextOf (step s)).map fun t => (t.regs[0], t.regs[1], t.pc, t.engine)

/-- The fault status registers and `pc` after a step that faults. -/
def faulted (s : State) : Option (FaultRegs × Word9) :=
  (nextOf (step s)).bind fun t => if t.engine = .faulted then some (t.faultRegs, t.pc) else none

/-! ### Well-formedness: an ill-formed term for each check -/

theorem test_wf_refuses_ldi_register : (Instr.ldi 8 0).wf = false := by decide
theorem test_wf_refuses_prn_register : (Instr.prn 255).wf = false := by decide
theorem test_wf_refuses_mul_first : (Instr.mul 8 0).wf = false := by decide
theorem test_wf_refuses_mul_second : (Instr.mul 0 8).wf = false := by decide
theorem test_wf_refuses_div_first : (Instr.div 8 0).wf = false := by decide
theorem test_wf_refuses_div_second : (Instr.div 0 8).wf = false := by decide
theorem test_wf_refuses_add_first : (Instr.add 9 0).wf = false := by decide
theorem test_wf_refuses_add_second : (Instr.add 0 9).wf = false := by decide
theorem test_wf_refuses_sub_first : (Instr.sub 8 0).wf = false := by decide
theorem test_wf_refuses_sub_second : (Instr.sub 0 8).wf = false := by decide
theorem test_wf_accepts_r7_and_any_immediate : (Instr.ldi 7 255).wf = true := by decide

/-! ### Decoding: words written out from R53 -/

theorem test_decode_ldi : decode [0b10000010, 3, 200] = .ok (.ldi 3 200, []) := by decide
theorem test_decode_prn : decode [0b01000111, 5, 1] = .ok (.prn 5, [1]) := by decide
theorem test_decode_hlt : decode [0b00000001, 7] = .ok (.hlt, [7]) := by decide
theorem test_decode_mul : decode [0b10100010, 1, 2] = .ok (.mul 1 2, []) := by decide
theorem test_decode_div : decode [0b10100011, 1, 2] = .ok (.div 1 2, []) := by decide
theorem test_decode_add : decode [0b10100000, 1, 2] = .ok (.add 1 2, []) := by decide
theorem test_decode_sub : decode [0b10100001, 1, 2] = .ok (.sub 1 2, []) := by decide

/-- V4: neighbours of defined opcodes are none of them. -/
theorem test_decode_neighbours_unknown :
    ∀ op ∈ ([0x02, 0x80, 0x81, 0x83, 0x46, 0x48, 0x00, 0x21, 0xA4, 0xA7, 0xE2, 0xC2, 0xFF] : List Byte),
      decode [op, 0, 0] = .error (.unknownOpcode op) := by decide

theorem test_decode_missing_operand : decode [0x82, 0] = .error (.missingOperand 0x82) := by decide
theorem test_decode_empty : decode [] = .error .noOpcode := by decide
theorem test_table_word_ldi : decodeTableWord 24 0x080382 = some (.ldi 3 8) := by decide
theorem test_table_word_short : decodeTableWord 8 0xA0 = some (.add 0 0) := by decide

/-- R65: both spellings of the source, and the refused register. -/
theorem test_assemble_without_comma :
    assemble ['L', 'D', 'I', ' ', 'R', '0', ' ', '1', '0'] = some (.ldi 0 10) := by decide
theorem test_assemble_hex_with_comma :
    assemble ['L', 'D', 'I', ' ', 'R', '7', ',', ' ', '0', 'x', 'F', 'F'] = some (.ldi 7 255) := by decide
theorem test_assemble_refuses_r9 : assemble ['P', 'R', 'N', ' ', 'R', '9'] = none := by decide

/-! ### One step of each instruction -/

/-- L2: R7 and 255. -/
theorem test_ldi_top : (nextOf (step (demo mulMode 0 [0x82, 0x07, 0xFF] none none))).map (fun t => (t.regs[7], t.pc)) =
    some (some 255, 3) := by decide
/-- L4: index 8. -/
theorem test_ldi_index_fault : faulted (demo mulMode 0 [0x82, 0x08, 0x05] none none) =
    some (⟨1, 1, 0, 0x82, 1, 8⟩, 0) := by decide
/-- V8: PRN ending at 255. -/
theorem test_prn_emits : (nextOf (step (demo mulMode 254 [0x47, 0x00] (some 9) none))).map (fun t => (t.out, t.pc)) =
    some ([9], 256) := by decide
/-- P-5: a register that holds no value. -/
theorem test_prn_no_value : reportedFault (demo mulMode 0 [0x47, 0x02] none none) = some (.uninitRead 0) := by decide
/-- H2. -/
theorem test_hlt : seen (demo mulMode 5 [0x01] none none) = some (none, none, 6, .halted) := by decide
/-- H3, V6: HLT at 255 is no fault. -/
theorem test_hlt_at_top : seen (demo mulMode 255 [0x01] none none) = some (none, none, 256, .halted) := by decide
/-- M1. -/
theorem test_mul : seen (demo mulMode 0 [0xA2, 0, 1] (some 6) (some 7)) = some (some 42, some 7, 3, .running) := by decide
/-- M3: 65025 keeps its low byte. -/
theorem test_mul_wraps : seen (demo mulMode 0 [0xA2, 0, 1] (some 255) (some 255)) =
    some (some 1, some 255, 3, .running) := by decide
/-- DM2: MULTIPLY mode has no zero check. -/
theorem test_div_multiplies : seen (demo mulMode 0 [0xA3, 0, 1] (some 9) (some 0)) =
    some (some 0, some 0, 3, .running) := by decide
/-- DD2. -/
theorem test_div_divides : seen (demo divideMode 0 [0xA3, 0, 1] (some 255) (some 16)) =
    some (some 15, some 16, 3, .running) := by decide
/-- DD5. -/
theorem test_div_by_zero : faulted (demo divideMode 0 [0xA3, 0, 1] (some 9) (some 0)) =
    some (⟨4, 0, 0, 0xA3, 1, 1⟩, 0) := by decide
/-- A3. -/
theorem test_add_wraps : seen (demo mulMode 0 [0xA0, 0, 1] (some 200) (some 100)) =
    some (some 44, some 100, 3, .running) := by decide
/-- A7: A is checked before B. -/
theorem test_add_index_order : faulted (demo mulMode 0 [0xA0, 9, 8] none none) = some (⟨1, 1, 0, 0xA0, 1, 9⟩, 0) := by
  decide
/-- S-3. -/
theorem test_sub_wraps : seen (demo mulMode 0 [0xA1, 0, 1] (some 2) (some 5)) =
    some (some 253, some 5, 3, .running) := by decide
/-- A8: the second register holds no value. -/
theorem test_add_no_value : reportedFault (demo mulMode 0 [0xA0, 0, 1] (some 1) none) = some (.uninitRead 0) := by decide
/-- R95: on the hardware the run goes on, with the byte that is there. -/
theorem test_add_no_value_goes_on : (nextOf (step (demo mulMode 0 [0xA0, 0, 1] (some 1) none))).map (fun t => t.pc) =
    some 3 := by rfl
/-- S-4, with R0. -/
theorem test_sub_same_register : seen (demo mulMode 0 [0xA1, 0, 0] (some 77) none) =
    some (some 0, none, 3, .running) := by decide

/-! ### The cycle -/

/-- V3: no operand is fetched, so the missing ones do not matter. -/
theorem test_unknown_opcode : faulted (demo mulMode 0 [0xC2] none none) = some (⟨2, 0, 0, 0xC2, 1, 0xC2⟩, 0) := by decide
/-- V5. -/
theorem test_fetch_at_256 : faulted (demo mulMode 256 [] none none) = some (⟨1, 0, 256, 0, 0, 256⟩, 256) := by decide
/-- V9. -/
theorem test_operand_at_256 : faulted (demo mulMode 254 [0x82, 0x00] none none) =
    some (⟨1, 0, 254, 0x82, 1, 256⟩, 254) := by decide
/-- V11 and V12: an unwritten cell under each RESET_FILL. -/
theorem test_unwritten_cell : reportedFault (demo mulMode 0 [] none none) = some (.uninitRead 0) := by decide
theorem test_zero_filled_cell : faulted (demo ⟨.multiply, .zero⟩ 0 [] none none) = some (⟨2, 0, 0, 0, 1, 0⟩, 0) := by decide
/-- V13. -/
theorem test_unwritten_operand : reportedFault (demo mulMode 0 [0x82, 0x00] none none) = some (.uninitRead 0) := by decide

/-- The first step after reset runs the instruction the host places. -/
theorem test_fetch_word_runs : (nextOf (step (State.reset.withFetchWord 24 0x2A0382))).map (fun t => (t.regs[3], t.pc)) =
    some (some 42, 3) := by decide
theorem test_fetch_word_prn : (nextOf (step (State.reset.withFetchWord 8 0x47))).map (fun t => (t.out, t.pc)) =
    some ([0], 2) := by decide

/-! ### The host -/

/-- LD4. -/
theorem test_load_refused_when_running : (hostLoad [1] (demo mulMode 0 [] none none)).1 = .notIdle := by decide
/-- LD5. -/
theorem test_load_refuses_256 : hostLoad [0x82, 256] (State.resetWith mulMode 0) = (.badByte, State.resetWith mulMode 0) := by
  decide
/-- LD2, for any length above 256. -/
theorem test_load_refuses_257_bytes (n : Nat) (h : 256 < n) :
    (hostLoad (List.replicate n 0) (State.resetWith mulMode 0)).1 = .programTooLarge := by
  simp [hostLoad, State.resetWith, isByteValue, h]
/-- LD6: the second load leaves the first one's other bytes. -/
theorem test_second_load : (hostLoad [0x01] (hostLoad [0x82, 0x00, 0x01] (State.resetWith mulMode 0)).2).2.mem =
    [(0, 0x01), (1, 0x00), (2, 0x01)] := by decide
/-- H4. -/
theorem test_run_after_halt :
    (nextOf (step (demo mulMode 0 [0x01] none none))).map (fun t => (hostRun t).1) = some .notIdle := by decide
/-- TR1. -/
theorem test_trace : hostTrace (demo mulMode 254 [0x47, 0x00] (some 9) none) =
    ⟨254, some 0x47, some 0x00, none, #v[some 9, none, none, none, none, none, none, none]⟩ := by decide
/-- P-1, P-2, P-3. -/
theorem test_output_lines : [0, 8, 255].map decimalDigits = [['0'], ['8'], ['2', '5', '5']] := by decide

/-! ### Witnesses: the hypotheses of each statement can be met, clause by clause -/

/-- The core after reset, the load of `bytes` and `run`. -/
def booted (p : Params) (bytes : List Int) : State := hostOp .run (hostOp (.load bytes) (State.resetWith p 0))

theorem booted_one_byte_inv : (booted mulMode [1]).Inv :=
  ⟨by decide, by decide, by decide, by decide, by decide, fun h => absurd h (by decide)⟩

theorem booted_nothing_inv : (booted mulMode []).Inv :=
  ⟨by decide, by decide, by decide, by decide, by decide, fun h => absurd h (by decide)⟩

/-- A state with a next state after one step, where `nextOf` finds one. -/
theorem exists_next {o : Host.Outcome State Fault Refusal} {q : State → Bool} (h : (nextOf o).any q = true) :
    ∃ t, o = .next t ∧ q t = true := by
  cases o with
  | next t => exact ⟨t, rfl, h⟩
  | fault r => cases h
  | refused r => cases h

theorem exists_fault {s : State} {r : ModelFault} (h : reportedFault s = some r) : reportedStep s = .fault r := by
  unfold reportedFault at h
  split at h
  · cases h
  · next e => rw [e]; exact congrArg _ (Option.some.inj h)
  · cases h

theorem witness_DecodeComparesTheWholeOpcodeByte :
    (0x00 : Byte) ≠ 0x02 ∧ decodeOpcode 0x00 = decodeOpcode 0x02 := by decide

theorem witness_AssemblerReadsWhatItWrites :
    (Instr.add 7 0).wf = true ∧ assemble ['H', 'L', 'T'] = some .hlt := by decide

theorem witness_IllegalOpcodeRaisesUnknownInstruction :
    operandCount 0xC0 = 3 ∧ ∃ s : State, s.engine = .running ∧ s.pc.toNat < 256 ∧ s.cell s.pc.toNat = some 0x80 ∧
      decodeOpcode 0x80 = none :=
  ⟨by decide, demo mulMode 255 [0x80] none none, by decide⟩

theorem witness_StepRunsTheDecodedInstruction_next :
    ∃ (s t : State) (bytes rest : List Byte) (i : Instr), s.engine = .running ∧
      (∀ (k : Nat) (hk : k < bytes.length), s.pc.toNat + k < 256 ∧ s.byteAt (s.pc.toNat + k) = bytes[k]) ∧
      decode bytes = .ok (i, rest) ∧ exec i s = .next t ∧ t.engine ≠ .faulted := by
  obtain ⟨t, ht, hq⟩ := exists_next (o := exec (.ldi 0 8) (demo mulMode 253 [0x82, 0, 8] none none))
    (q := fun t => t.engine != .faulted) (by decide)
  exact ⟨_, t, [0x82, 0, 8], [], .ldi 0 8, by decide, by decide, by decide, ht, by simpa using hq⟩

theorem witness_StepRunsTheDecodedInstruction_faulted :
    ∃ (s t : State) (bytes rest : List Byte) (i : Instr), s.engine = .running ∧
      (∀ (k : Nat) (hk : k < bytes.length), s.pc.toNat + k < 256 ∧ s.byteAt (s.pc.toNat + k) = bytes[k]) ∧
      decode bytes = .ok (i, rest) ∧ exec i s = .next t ∧ t.engine = .faulted := by
  obtain ⟨t, ht, hq⟩ := exists_next (o := exec (.ldi 8 8) (demo mulMode 253 [0x82, 8, 8] none none))
    (q := fun t => t.engine == .faulted) (by decide)
  exact ⟨_, t, [0x82, 8, 8], [], .ldi 8 8, by decide, by decide, by decide, ht, by simpa using hq⟩

theorem witness_FetchAtTheEndOfMemoryFaults :
    ∃ s : State, s.engine = .running ∧ 256 ≤ s.pc.toNat := ⟨demo mulMode 256 [] none none, by decide⟩

theorem witness_ModelFaultExactlyOnReadsOfNoValue_opcode :
    ∃ s : State, s.engine = .running ∧ s.pc.toNat < 256 ∧ s.cell s.pc.toNat = none :=
  ⟨demo mulMode 255 [] none none, by decide⟩

theorem witness_ModelFaultExactlyOnReadsOfNoValue_operand :
    ∃ (s : State) (op : Byte) (k : Nat), s.engine = .running ∧ s.cell s.pc.toNat = some op ∧ decodeOpcode op ≠ none ∧
      1 ≤ k ∧ k ≤ operandCount op ∧ s.pc.toNat + k < 256 ∧ s.cell (s.pc.toNat + k) = none :=
  ⟨demo mulMode 253 [0x82, 0] none none, 0x82, 2, by decide⟩

theorem witness_ModelFaultExactlyOnReadsOfNoValue_register :
    ∃ (s : State) (i : Instr), s.engine = .running ∧ s.InstrAt i ∧ (∀ b ∈ registerBytes i, b.toNat < 8) ∧
      ∃ b ∈ sourceBytes i, ∃ _ : b.toNat < 8, s.regs[b.toNat] = none :=
  ⟨demo mulMode 253 [0xA0, 0, 1] (some 1) none, .add 0 1, by decide, by decide, by decide, 1, by decide, by decide,
    by decide⟩

theorem witness_ModelFaultExactlyOnReadsOfNoValue_inv :
    ∃ (s : State) (r : ModelFault), s.Inv ∧ reportedStep s = .fault r :=
  ⟨booted mulMode [], .uninitRead 0, booted_nothing_inv, exists_fault (by decide)⟩

/-- For the statements about a Running core whose step does not fault. -/
theorem witness_step_completes : ∃ s t : State, s.engine = .running ∧ step s = .next t ∧ t.engine ≠ .faulted := by
  obtain ⟨t, ht, hq⟩ := exists_next (o := step (demo mulMode 253 [0x82, 0, 8] none none))
    (q := fun t => t.engine != .faulted) (by decide)
  exact ⟨_, t, by decide, ht, by simpa using hq⟩

/-- A step that reads nothing without a value is reported as it is. -/
theorem reportedStep_next {s t : State} (h : readsNoValue s = false) (ht : step s = .next t) :
    reportedStep s = .next t := by
  obtain ⟨-, e, -⟩ | ⟨-, e⟩ := reportedStep_cases s
  · rw [h] at e; cases e
  · exact (e t).2 ht

/-- For the statements about a Running core whose step faults and is no model fault, each cause that can be raised and
each kind. -/
theorem witness_step_faults : ∀ c ∈ [(1, 0), (1, 1), (2, 0), (4, 0)],
    ∃ s t : State, s.engine = .running ∧ step s = .next t ∧ reportedStep s = .next t ∧ t.engine = .faulted ∧
      t.faultRegs.cause = BitVec.ofNat 3 c.1 ∧ t.faultRegs.kind = BitVec.ofNat 1 c.2 := by
  have made : ∀ (s : State) (c k : Nat), s.engine = .running → readsNoValue s = false →
      (nextOf (step s)).any (fun t => t.engine == .faulted && t.faultRegs.cause == BitVec.ofNat 3 c &&
        t.faultRegs.kind == BitVec.ofNat 1 k) = true →
      ∃ s t : State, s.engine = .running ∧ step s = .next t ∧ reportedStep s = .next t ∧ t.engine = .faulted ∧
        t.faultRegs.cause = BitVec.ofNat 3 c ∧ t.faultRegs.kind = BitVec.ofNat 1 k := by
    intro s c k hs hr h
    obtain ⟨t, ht, hq⟩ := exists_next h
    simp only [Bool.and_eq_true, beq_iff_eq] at hq
    exact ⟨s, t, hs, ht, reportedStep_next hr ht, hq.1.1, hq.1.2, hq.2⟩
  intro c hc
  simp only [List.mem_cons, List.not_mem_nil, or_false] at hc
  obtain rfl | rfl | rfl | rfl := hc
  · exact made (demo mulMode 255 [0x47] none none) 1 0 (by decide) (by decide) (by decide)
  · exact made (demo mulMode 254 [0x47, 8] none none) 1 1 (by decide) (by decide) (by decide)
  · exact made (demo mulMode 255 [0x00] none none) 2 0 (by decide) (by decide) (by decide)
  · exact made (demo divideMode 253 [0xA3, 0, 1] (some 9) (some 0)) 4 0 (by decide) (by decide) (by decide)

theorem witness_ExecuteChangesOnlyWhatItsRuleNames :
    ∃ (i : Instr) (s t : State) (j : Fin 8), exec i s = .next t ∧ destination i ≠ some (BitVec.ofNat 8 j) ∧
      ∀ r, i ≠ .prn r := by
  obtain ⟨t, ht, -⟩ := exists_next (o := exec (.sub 0 1) (demo mulMode 0 [] (some 0) (some 1))) (q := fun _ => true)
    (by decide)
  exact ⟨.sub 0 1, _, t, 7, ht, by decide, by simp⟩

theorem witness_OnlyLoadImmediateAndAluWriteRegisters :
    ∃ (s t : State) (j : Fin 8), step s = .next t ∧ t.regs[j] ≠ s.regs[j] := by
  obtain ⟨t, ht, hq⟩ := exists_next (o := step (demo mulMode 253 [0x82, 7, 8] none none))
    (q := fun t => t.regs[(7 : Fin 8)] == some 8) (by decide)
  refine ⟨_, t, 7, ht, ?_⟩
  rw [beq_iff_eq.1 hq]
  decide

theorem witness_MemoryChangesOnlyByTheHostInIdle :
    ∃ (o : HostOp) (s : State), o ≠ .reset ∧ s.engine ≠ .idle := ⟨.load [1], demo mulMode 0 [] none none, by decide⟩

theorem witness_StepReadsNoByteButTheInstructions :
    ∃ (s : State) (m : Memory) (i : Instr), s.engine = .running ∧ s.InstrRead i ∧ ({ s with mem := m } : State).InstrRead i ∧
      m ≠ s.mem :=
  ⟨demo mulMode 255 [0x01] none none, [(0, 5), (255, 0x01)], .hlt, by decide⟩

theorem witness_NothingExecutesOutsideRunning :
    ∀ e ∈ [EngineState.idle, .halted, .faulted], ∃ s : State, s.engine = e ∧ s.engine ≠ .running := by
  intro e he
  refine ⟨(demo mulMode 0 [0x01] none none).setEngine e, rfl, ?_⟩
  rintro rfl
  exact absurd he (by decide)

theorem witness_EngineStateChangesOnlyByResetRunHaltAndFault_run :
    HostOp.run ≠ .reset ∧ (hostOp .run (State.resetWith mulMode 0)).engine ≠ (State.resetWith mulMode 0).engine := by decide

theorem witness_EngineStateChangesOnlyByResetRunHaltAndFault_halt :
    ∃ s t : State, step s = .next t ∧ t.engine ≠ s.engine ∧ t.engine = .halted := by
  obtain ⟨t, ht, hq⟩ := exists_next (o := step (demo mulMode 255 [0x01] none none))
    (q := fun t => t.engine == .halted) (by decide)
  exact ⟨_, t, ht, by rw [beq_iff_eq.1 hq]; decide, beq_iff_eq.1 hq⟩

theorem witness_EngineStateChangesOnlyByResetRunHaltAndFault_terminal :
    ∃ s : State, (s.engine = .halted ∨ s.engine = .faulted) ∧ HostOp.run ≠ .reset :=
  ⟨(demo mulMode 0 [] none none).setEngine .halted, by decide⟩

theorem witness_StepsDoNotDependOnOutputOrFaultStatus :
    ∃ s t : State, SameProgramView s t ∧ s ≠ t ∧ s.engine = .running :=
  ⟨demo mulMode 254 [0x47, 0] (some 9) none,
    { demo mulMode 254 [0x47, 0] (some 9) none with out := [1], faultRegs := ⟨2, 0, 1, 2, 1, 2⟩ }, by decide⟩

theorem witness_OnlyResetTakesAValueAway :
    ∃ (s : State) (j : Fin 8) (a : Nat), s.regs[j] ≠ none ∧ s.cell a ≠ none ∧ HostOp.load [1] ≠ .reset :=
  ⟨demo mulMode 0 [0x01] (some 1) none, 0, 0, by decide⟩

theorem witness_RunningOffTheProgramStopsTheRun :
    ∀ f : ResetFill, ∃ s : State, s.engine = .running ∧ s.pc.toNat < 256 ∧ (∀ c ∈ s.mem, c.1 ≠ s.pc.toNat) ∧
      s.params.resetFill = f := by
  intro f
  refine ⟨{ demo ⟨.multiply, f⟩ 255 [] none none with mem := [(0, 1)] }, ?_⟩
  cases f <;> decide

theorem witness_OperandFetchRule : ∀ op ∈ ([0x82, 0x47, 0xA2, 0xA3, 0xA0, 0xA1] : List Byte),
    ∃ s : State, s.engine = .running ∧ s.pc.toNat < 256 ∧ s.cell s.pc.toNat = some op ∧
      256 ≤ s.pc.toNat + operandCount op ∧ (∀ a, s.pc.toNat < a → a < 256 → s.cell a ≠ none) := by
  intro op hop
  refine ⟨{ State.resetWith mulMode 0 with engine := .running, pc := 255, mem := [(255, op)] }, rfl, ?_, rfl, ?_,
    fun a h1 h2 => ?_⟩
  · exact (by decide : (255 : Word9).toNat < 256)
  · revert op; decide
  · have h3 : 255 < a := h1
    omega

theorem witness_OperandFetchRule_no_value : ∀ op ∈ ([0x82, 0x47, 0xA2, 0xA3, 0xA0, 0xA1] : List Byte),
    ∃ (s : State) (k : Nat), s.engine = .running ∧ s.cell s.pc.toNat = some op ∧ 1 ≤ k ∧ k ≤ operandCount op ∧
      s.pc.toNat + k < 256 ∧ s.cell (s.pc.toNat + k) = none := by
  intro op hop
  refine ⟨{ State.resetWith mulMode 0 with engine := .running, pc := 254, mem := [(254, op)] }, 1, rfl, rfl, by decide, ?_,
    (by decide : (254 : Word9).toNat + 1 < 256), rfl⟩
  revert op; decide

theorem witness_LoadImmediateWritesItsRegister :
    ∃ (r imm : Byte) (s : State), r.toNat < 8 ∧ s.engine = .running ∧ s.InstrAt (.ldi r imm) :=
  ⟨7, 255, demo mulMode 253 [0x82, 7, 255] none none, by decide⟩

theorem witness_register_byte_out_of_range : (8 : Byte).toNat ≥ 8 ∧ (255 : Byte).toNat ≥ 8 := by decide

theorem witness_PrintEmitsItsRegister :
    ∃ (r : Byte) (_ : r.toNat < 8) (s : State) (v : Byte), s.regs[r.toNat] = some v ∧ s.engine = .running ∧
      s.InstrAt (.prn r) := ⟨0, by decide, demo mulMode 254 [0x47, 0] (some 255) none, 255, by decide⟩

theorem witness_PrintEmitsItsRegister_no_value :
    ∃ (r : Byte) (hr : r.toNat < 8) (s : State), s.engine = .running ∧ s.InstrAt (.prn r) ∧ s.regs[r.toNat] = none ∧
      s.RegReads ⟨r.toNat, hr⟩ (Config.unwrittenRegister s.boot r.toNat) :=
  ⟨7, by decide, demo mulMode 254 [0x47, 7] none none, by decide, by decide, by decide, .inr ⟨by decide, rfl⟩⟩

theorem witness_HaltStopsTheEngineAndAdvances :
    ∃ s : State, s.engine = .running ∧ s.InstrAt .hlt ∧ s.pc = 255 := ⟨demo mulMode 255 [0x01] none none, by decide⟩

theorem witness_PrintEmitsItsRegister_decimal : (100 : Byte) ≠ 0 := by decide

/-- For MultiplyRule, AddRule, SubtractRule and DivideRule: each reads two registers that hold values. -/
theorem witness_AluRule : ∀ mk ∈ [Instr.mul, Instr.div, Instr.add, Instr.sub],
    ∃ (A B : Byte) (_ : A.toNat < 8) (_ : B.toNat < 8) (s : State) (x y : Byte), s.regs[A.toNat] = some x ∧
      s.regs[B.toNat] = some y ∧ s.params.divMode = .divide ∧ y ≠ 0 ∧ s.engine = .running ∧ s.InstrAt (mk A B) := by
  intro mk hmk
  simp only [List.mem_cons, List.not_mem_nil, or_false] at hmk
  obtain rfl | rfl | rfl | rfl := hmk
  · exact ⟨0, 1, by decide, by decide, demo divideMode 253 [0xA2, 0, 1] (some 255) (some 255), 255, 255, by decide⟩
  · exact ⟨0, 1, by decide, by decide, demo divideMode 253 [0xA3, 0, 1] (some 255) (some 255), 255, 255, by decide⟩
  · exact ⟨0, 1, by decide, by decide, demo divideMode 253 [0xA0, 0, 1] (some 255) (some 255), 255, 255, by decide⟩
  · exact ⟨0, 1, by decide, by decide, demo divideMode 253 [0xA1, 0, 1] (some 255) (some 255), 255, 255, by decide⟩

/-- And each with a first register that holds no value, which reads as a free value. -/
theorem witness_AluRule_no_value : ∀ mk ∈ [Instr.mul, Instr.div, Instr.add, Instr.sub],
    ∃ (A B : Byte) (hA : A.toNat < 8) (_ : B.toNat < 8) (s : State), s.engine = .running ∧ s.InstrAt (mk A B) ∧
      (s.regs[A.toNat] = none ∨ s.regs[B.toNat] = none) ∧
      s.RegReads ⟨A.toNat, hA⟩ (Config.unwrittenRegister s.boot A.toNat) := by
  intro mk hmk
  simp only [List.mem_cons, List.not_mem_nil, or_false] at hmk
  obtain rfl | rfl | rfl | rfl := hmk
  · exact ⟨0, 1, by decide, by decide, demo mulMode 253 [0xA2, 0, 1] none (some 1), by decide, by decide, by decide,
      .inr ⟨by decide, rfl⟩⟩
  · exact ⟨0, 1, by decide, by decide, demo mulMode 253 [0xA3, 0, 1] none (some 1), by decide, by decide, by decide,
      .inr ⟨by decide, rfl⟩⟩
  · exact ⟨0, 1, by decide, by decide, demo mulMode 253 [0xA0, 0, 1] none (some 1), by decide, by decide, by decide,
      .inr ⟨by decide, rfl⟩⟩
  · exact ⟨0, 1, by decide, by decide, demo mulMode 253 [0xA1, 0, 1] none (some 1), by decide, by decide, by decide,
      .inr ⟨by decide, rfl⟩⟩

theorem witness_DivideRule_multiply_mode_zero :
    ∃ (A B : Byte) (_ : A.toNat < 8) (_ : B.toNat < 8) (s : State) (x : Byte), s.regs[A.toNat] = some x ∧
      s.regs[B.toNat] = some 0 ∧ s.params.divMode = .multiply :=
  ⟨0, 1, by decide, by decide, demo mulMode 0 [] (some 9) (some 0), 9, by decide⟩

/-- For DivideRule and DivideByZeroExactlyInDivideMode. -/
theorem witness_divide_by_zero :
    ∃ (A B : Byte) (_ : A.toNat < 8) (_ : B.toNat < 8) (s : State), s.engine = .running ∧ s.InstrAt (.div A B) ∧
      s.params.divMode = .divide ∧ s.regs[A.toNat] ≠ none ∧ s.regs[B.toNat] = some 0 :=
  ⟨0, 1, by decide, by decide, demo divideMode 253 [0xA3, 0, 1] (some 9) (some 0), by decide⟩

theorem witness_AluComputesModulo256 : (255 : Byte) ≠ 0 := by decide

theorem witness_SameRegisterAsBothOperands : ∀ p ∈ [mulMode, divideMode], ∀ a ∈ ([0, 255] : List Byte),
    ∃ (A : Byte) (_ : A.toNat < 8) (s : State), s.regs[A.toNat] = some a ∧ s.params = p := by
  intro p _ a _
  exact ⟨0, by decide, demo p 0 [] (some a) none, rfl, rfl⟩

theorem witness_AddThenSubtractRoundTrip :
    ∃ (A B : Byte) (_ : A.toNat < 8) (_ : B.toNat < 8) (s : State), A ≠ B ∧ s.regs[A.toNat] ≠ none ∧
      s.regs[B.toNat] ≠ none := ⟨0, 1, by decide, by decide, demo mulMode 0 [] (some 200) (some 100), by decide⟩

theorem witness_OutOfRangeAccessExactlyWhenOutOfRange :
    ∃ (s : State) (i : Instr), s.engine = .running ∧ s.InstrAt i ∧ ∃ b ∈ registerBytes i, 8 ≤ b.toNat :=
  ⟨demo mulMode 253 [0xA0, 0, 8] none none, .add 0 8, by decide, by decide, 8, by decide⟩

theorem witness_EveryInstructionAndEveryStepHasANextState :
    (∀ j : Fin 8, State.reset.regs[j] ≠ none) ∧ State.reset.Inv ∧ State.reset.params.resetFill = .zero ∧
      Reached Config.resetParams State.reset :=
  ⟨by decide, ⟨by decide, by decide, by decide, by decide, by decide, fun h => absurd h (by decide)⟩, by decide,
    .reset 0⟩

theorem witness_UnsupportedOperationIsNeverRaised : Reached mulMode (booted mulMode [1]) :=
  .move (.move (.reset 0) (.host (.load [1]))) (.host .run)

theorem witness_ProgramCounterReachesExactly0To256 : Reached mulMode (State.resetWith mulMode 0) := .reset 0

theorem witness_EveryStepKeepsTheInvariant :
    ∃ s t : State, s.Inv ∧ step s = .next t ∧ s.engine = .running ∧ t.engine = .halted := by
  obtain ⟨t, ht, hq⟩ := exists_next (o := step (booted mulMode [1])) (q := fun t => t.engine == .halted) (by decide)
  exact ⟨_, t, booted_one_byte_inv, ht, by decide, beq_iff_eq.1 hq⟩

theorem witness_EveryHostOperationKeepsTheInvariant : ∃ s : State, s.Inv := ⟨_, booted_one_byte_inv⟩

theorem witness_EveryRunEndsWithin257Steps : ∃ s : State, s.engine = .running := ⟨booted mulMode [1], by decide⟩

theorem witness_MemReadRule :
    ∃ s : State, s.cell 0 = none ∧ s.cell 255 = some 1 := ⟨demo mulMode 255 [1] none none, by decide⟩

theorem witness_MemReadRule_out_of_range :
    256 ≤ 256 ∧ memRead (State.resetWith mulMode 0) 256 = .error ⟨.outOfRangeAccess, .memory, 256⟩ := by decide

theorem witness_MemWriteThenMemRead_last_cell :
    255 < 256 ∧ ∃ t, memWrite (State.resetWith mulMode 0) 255 7 = .ok t ∧ memRead t 255 = .ok 7 ∧
      memRead t 254 = memRead (State.resetWith mulMode 0) 254 := ⟨by decide, _, rfl, rfl, rfl⟩

theorem witness_MemWriteThenMemRead_out_of_range :
    256 ≤ 256 ∧ memWrite (State.resetWith mulMode 0) 256 7 = .error ⟨.outOfRangeAccess, .memory, 256⟩ :=
  ⟨by decide, rfl⟩

theorem witness_CanonicalMemoriesThatReadAlikeAreEqual : ∀ f : ResetFill,
    Memory.wf f [(0, 1), (255, 2)] = true := by
  intro f
  cases f <;> decide

theorem witness_ResetValues : ∀ f : ResetFill, ∃ s : State, s.params.resetFill = f ∧ s.engine = .faulted :=
  fun f => ⟨(State.resetWith ⟨.multiply, f⟩ 0).setEngine .faulted, rfl, rfl⟩

theorem witness_LoadRule_bad_byte : ∃ s : State, s.engine = .idle ∧ ∃ v ∈ ([0x82, 256] : List Int), v < 0 ∨ 255 < v :=
  ⟨State.resetWith mulMode 0, rfl, 256, by decide, by decide⟩

theorem witness_LoadRule_ok : ∃ s : State, s.engine = .idle ∧ (∀ v ∈ ([0, 255] : List Int), 0 ≤ v ∧ v ≤ 255) :=
  ⟨State.resetWith mulMode 0, rfl, by decide⟩

theorem witness_LoadRule_too_large : ∃ (bytes : List Int) (s : State), s.engine = .idle ∧
    (∀ v ∈ bytes, 0 ≤ v ∧ v ≤ 255) ∧ 256 < bytes.length := by
  refine ⟨List.replicate 257 255, State.resetWith mulMode 0, rfl, fun v hv => ?_, ?_⟩
  · rw [(List.mem_replicate.1 hv).2]; decide
  · rw [List.length_replicate]; decide

theorem witness_RunIsAcceptedOnlyInIdle :
    (State.resetWith mulMode 0).engine = .idle ∧ (booted mulMode []).engine ≠ .idle := by decide

theorem witness_TraceReportsAndChangesNothing :
    ∃ s : State, s.pc.toNat + 1 < 256 ∧ 256 ≤ s.pc.toNat + 2 := ⟨demo mulMode 254 [0x47, 0] none none, by decide⟩

theorem witness_HostCannotInterfereWithARun :
    ∃ (o : HostOp) (s : State), o ≠ .reset ∧ s.engine = .running := ⟨.load [1], booted mulMode [], by decide⟩

theorem witness_BootRunsTheLoadedProgramFromZero :
    ([0x82, 0, 8, 0x47, 0, 0x01] : List Byte).length ≤ 256 ∧
      decode [0x82, 0, 8, 0x47, 0, 0x01] = .ok (.ldi 0 8, [0x47, 0, 0x01]) := by decide

theorem witness_ReadsOfNoValueGoOnWithTheSameByte :
    ∃ s t : State, s.regs[(7 : Fin 8)] = none ∧ s.cell 0 = none ∧ step s = .next t ∧ t.regs[(7 : Fin 8)] = s.regs[(7 : Fin 8)] ∧
      HostOp.run ≠ .reset := by
  obtain ⟨t, ht, hq⟩ := exists_next (o := step (demo mulMode 255 [0x01] none none))
    (q := fun t => t.regs[(7 : Fin 8)] == none) (by decide)
  exact ⟨_, t, by decide, by decide, ht, (beq_iff_eq.1 hq).trans (by decide), by decide⟩

/-- With a register that nothing has written, and with an operand byte that nothing has written. -/
theorem witness_InstructionsGoOnWithUnwrittenBytes :
    (∃ (r : Byte) (hr : r.toNat < 8) (s : State) (v : Byte), s.regs[r.toNat] = none ∧ s.RegReads ⟨r.toNat, hr⟩ v ∧
      s.engine = .running ∧ s.InstrRead (.prn r)) ∧
    ∃ (r imm : Byte) (_ : r.toNat < 8) (s : State), s.cell (s.pc.toNat + 2) = none ∧ s.engine = .running ∧
      s.InstrRead (.ldi r imm) := by
  refine ⟨⟨7, by decide, demo mulMode 254 [0x47, 7] none none, _, by decide, regReads_readReg _ _, by decide, by decide⟩,
    ⟨7, (demo mulMode 253 [0x82, 7] none none).byteAt 255, by decide, demo mulMode 253 [0x82, 7] none none, by decide,
      by decide, ?_⟩⟩
  rintro ⟨k, hk⟩
  have hk3 : k < 3 := hk
  match k, hk3 with
  | 0, _ => exact ⟨(by decide : (253 : Word9).toNat + 0 < 256), rfl⟩
  | 1, _ => exact ⟨(by decide : (253 : Word9).toNat + 1 < 256), rfl⟩
  | 2, _ => exact ⟨(by decide : (253 : Word9).toNat + 2 < 256), rfl⟩

/-- The statements over a reported step: one that faults and one that completes, neither the model fault. -/
theorem witness_reported_step :
    (∃ s t : State, s.engine = .running ∧ reportedStep s = .next t ∧ t.engine = .faulted) ∧
    ∃ s t : State, s.engine = .running ∧ reportedStep s = .next t ∧ t.engine ≠ .faulted := by
  constructor
  · obtain ⟨t, ht, hq⟩ := exists_next (o := step (demo mulMode 255 [0x47] none none))
      (q := fun t => t.engine == .faulted) (by decide)
    exact ⟨_, t, by decide, reportedStep_next (by decide) ht, beq_iff_eq.1 hq⟩
  · obtain ⟨t, ht, hq⟩ := exists_next (o := step (demo mulMode 255 [0x01] none none))
      (q := fun t => t.engine != .faulted) (by decide)
    exact ⟨_, t, by decide, reportedStep_next (by decide) ht, by simpa using hq⟩

end Sys2Proof.Tests
end

/-! PROOF. The frame of the execute parts (00_scope.md section 4): what `exec` leaves unchanged, from the four things it
can do. -/

namespace Sys2Proof.Machine

/-- The states an execute part can end in: `exec_cases` read backwards from the next state. -/
theorem exec_next_cases {i : Instr} {s t : State} (h : exec i s = .next t) :
    (∃ (d : Byte) (hd : d.toNat < 8) (v : Byte), destination i = some d ∧ t = s.writeReg ⟨d.toNat, hd⟩ v) ∨
    (∃ (r : Byte) (hr : r.toNat < 8) (v : Byte), i = .prn r ∧ s.RegReads ⟨r.toNat, hr⟩ v ∧ t = s.emit v) ∨
    (i = .hlt ∧ t = s.setEngine .halted) ∨
    (∃ cause kind info, RaisedBy i s cause kind info ∧
      t = faultEntry s (some i.opcode.byte) cause kind info) := by
  have next_eq {u : State} (e : exec i s = .next u) : t = u := by
    rw [h] at e
    exact Host.Outcome.next.inj e
  obtain ⟨d, hd, v, hdest, e⟩ | ⟨r, hr, v, hi, hv, e⟩ | ⟨hi, e⟩ | ⟨cause, kind, info, hraised, e⟩ := exec_cases i s
  · exact .inl ⟨d, hd, v, hdest, next_eq e⟩
  · exact .inr (.inl ⟨r, hr, v, hi, hv, next_eq e⟩)
  · exact .inr (.inr (.inl ⟨hi, next_eq e⟩))
  · exact .inr (.inr (.inr ⟨cause, kind, info, hraised, next_eq e⟩))

/-- R18: a write to the register an operand byte names leaves every register that the byte does not name. -/
theorem writeReg_regs_of_ne (s : State) {d : Byte} (hd : d.toNat < 8) (v : Byte) {j : Fin 8}
    (h : d ≠ BitVec.ofNat 8 j) : (s.writeReg ⟨d.toNat, hd⟩ v).regs[j] = s.regs[j] := by
  have hne : d.toNat ≠ j := fun e => h (BitVec.eq_of_toNat_eq (by simp; omega))
  simp [hne]

/-- An instruction with a destination is not HLT. -/
theorem ne_hlt_of_destination {i : Instr} {d : Byte} (h : destination i = some d) : i ≠ .hlt := by
  rintro rfl
  cases h

/-- Settles O11: each of the four things an execute part can do (`exec_next_cases`) keeps to the frame. -/
theorem executeChangesOnlyWhatItsRuleNames : Obligations.ExecuteChangesOnlyWhatItsRuleNames := by
  intro i s t h
  obtain ⟨d, hd, v, hdest, rfl⟩ | ⟨r, -, v, rfl, -, rfl⟩ | ⟨rfl, rfl⟩ | ⟨cause, kind, info, -, rfl⟩ := exec_next_cases h
  case inl =>
    have other_regs (j : Fin 8) (hj : destination i ≠ some (BitVec.ofNat 8 j)) :
        (s.writeReg ⟨d.toNat, hd⟩ v).regs[j] = s.regs[j] :=
      writeReg_regs_of_ne s hd v fun e => hj (e ▸ hdest)
    exact ⟨rfl, rfl, rfl, fun _ => rfl, other_regs, fun _ => rfl,
      .inl ⟨rfl, (if_neg (ne_hlt_of_destination hdest)).symm⟩⟩
  case inr.inl =>
    exact ⟨rfl, rfl, rfl, fun _ => rfl, fun _ _ => rfl, fun not_prn => absurd rfl (not_prn r), .inl ⟨rfl, rfl⟩⟩
  case inr.inr.inl =>
    exact ⟨rfl, rfl, rfl, fun _ => rfl, fun _ _ => rfl, fun _ => rfl, .inl ⟨rfl, rfl⟩⟩
  case inr.inr.inr =>
    exact ⟨rfl, rfl, rfl, fun _ => rfl, fun _ _ => rfl, fun _ => rfl, .inr ⟨rfl, rfl, rfl⟩⟩

end Sys2Proof.Machine

/-! PROOF. The step of a Running core (10_state.md sections 2, 3, 6 and 7): it completes an instruction or enters a fault,
and either way keeps the invariant. -/

namespace Sys2Proof.Machine

/-! ### What a step leaves -/

/-- The state `t` is what the completed instruction `i`, read at the program counter of the Running core `s`, leaves (R62,
step 5). The output is left out: only PRN changes it. -/
structure Completes (i : Instr) (s t : State) : Prop where
  read : s.InstrRead i
  params : t.params = s.params
  boot : t.boot = s.boot
  mem : t.mem = s.mem
  faultRegs : t.faultRegs = s.faultRegs
  pc : t.pc.toNat = s.pc.toNat + instrLength i.opcode.byte
  engine : t.engine = if i = .hlt then .halted else .running
  regs : ∀ j : Fin 8, t.regs[j] = s.regs[j] ∨ (t.regs[j] ≠ none ∧ destination i = some (BitVec.ofNat 8 j))

/-- The state `t` is a fault entry of `s` (R89), with the opcode byte recorded where the program counter is in range. -/
def EntersFault (s t : State) : Prop :=
  ∃ op cause kind info, t = faultEntry s op cause kind info ∧
    ((256 ≤ s.pc.toNat ∧ op = none) ∨ (s.pc.toNat < 256 ∧ op = some (s.byteAt s.pc.toNat)))

/-- A register after a register write is as before, or it is the written one and holds a value (R31). -/
theorem writeReg_regs_cases (s : State) {d : Byte} (hd : d.toNat < 8) (v : Byte) (j : Fin 8) :
    (s.writeReg ⟨d.toNat, hd⟩ v).regs[j] = s.regs[j] ∨
      ((s.writeReg ⟨d.toNat, hd⟩ v).regs[j] ≠ none ∧ d = BitVec.ofNat 8 j) := by
  by_cases h : d = BitVec.ofNat 8 j
  · have hj : d.toNat = j := by rw [h, BitVec.toNat_ofNat]; omega
    exact .inr ⟨by simp [hj], h⟩
  · exact .inl (writeReg_regs_of_ne s hd v h)

/-- R62: a step of a Running core completes the instruction it read, or enters a fault. -/
theorem step_completes_or_entersFault {s t : State} (hr : s.engine = .running) (h : step s = .next t) :
    (∃ i, Completes i s t) ∨ EntersFault s t := by
  obtain ⟨hpc, rfl⟩ | ⟨op, hpc, rfl, -, rfl⟩ | ⟨o, hpc, hop, -, rfl⟩ | ⟨i, c, k, n, hi, -, -, rfl⟩ |
    ⟨i, d, hd, v, hi, hdest, rfl⟩ | ⟨r, -, v, hi, -, rfl⟩ | ⟨hi, rfl⟩ := step_next_cases hr h
  · exact .inr ⟨_, _, _, _, rfl, .inl ⟨hpc, rfl⟩⟩
  · exact .inr ⟨_, _, _, _, rfl, .inr ⟨hpc, rfl⟩⟩
  · exact .inr ⟨_, _, _, _, rfl, .inr ⟨hpc, by rw [hop]⟩⟩
  · obtain ⟨hpc, hop⟩ := instrRead_pc hi
    exact .inr ⟨_, _, _, _, rfl, .inr ⟨hpc, by rw [hop]⟩⟩
  · refine .inl ⟨i, hi, rfl, rfl, rfl, rfl, advance_toNat hi, ?_, fun j => ?_⟩
    · rw [if_neg (ne_hlt_of_destination hdest)]; exact hr
    · rw [hdest, Option.some_inj]; exact writeReg_regs_cases s hd v j
  · exact .inl ⟨_, hi, rfl, rfl, rfl, rfl, advance_toNat hi, hr, fun _ => .inl rfl⟩
  · exact .inl ⟨_, hi, rfl, rfl, rfl, rfl, advance_toNat hi, rfl, fun _ => .inl rfl⟩

theorem EntersFault.engine {s t : State} (h : EntersFault s t) : t.engine = .faulted := by
  obtain ⟨_, _, _, _, rfl, -⟩ := h
  rfl

theorem Completes.engine_ne_faulted {i : Instr} {s t : State} (h : Completes i s t) : t.engine ≠ .faulted := by
  rw [h.engine]; split <;> nofun

theorem Completes.engine_ne_idle {i : Instr} {s t : State} (h : Completes i s t) : t.engine ≠ .idle := by
  rw [h.engine]; split <;> nofun

/-- A completed instruction takes no value away from a register (R31). -/
theorem Completes.regs_ne_none {i : Instr} {s t : State} (h : Completes i s t) {j : Fin 8} (hj : s.regs[j] ≠ none) :
    t.regs[j] ≠ none := by
  obtain e | ⟨e, -⟩ := h.regs j
  · rwa [e]
  · exact e

/-! ### The invariant -/

/-- A register operand byte of the instruction at the program counter is one of the operand bytes fetched after it
(R55). -/
theorem byteAt_of_mem_registerBytes {s : State} {i : Instr} (h : s.InstrRead i) {b : Byte} (hb : b ∈ registerBytes i) :
    ∃ k, 1 ≤ k ∧ k ≤ operandCount i.opcode.byte ∧ s.byteAt (s.pc.toNat + k) = b := by
  have pos : ∃ k, ∃ hk : k < (encode i).length, 1 ≤ k ∧ (encode i)[k] = b := by
    cases i with
    | hlt => cases hb
    | ldi r imm | prn r => exact ⟨1, by simp [encode], le_rfl, (List.mem_singleton.1 hb).symm⟩
    | mul A B | div A B | add A B | sub A B =>
      obtain rfl | hb := List.mem_cons.1 hb
      · exact ⟨1, by simp [encode], le_rfl, rfl⟩
      · exact ⟨2, by simp [encode], by decide, (List.mem_singleton.1 hb).symm⟩
  obtain ⟨k, hk, h1, rfl⟩ := pos
  have hlen : k < instrLength i.opcode.byte := encode_length i ▸ hk
  exact ⟨k, h1, by unfold instrLength at hlen; omega, (h ⟨k, hk⟩).2⟩

/-- What an execute part raises is told by the fault status registers (R87, R91). -/
theorem faultTold_of_raisedBy {s : State} {i : Instr} {cause : FaultCause} {kind : FaultKind} {info : Word9}
    (hi : s.InstrRead i) (h : RaisedBy i s cause kind info) :
    (faultEntry s (some i.opcode.byte) cause kind info).FaultTold := by
  obtain ⟨hpc, hop⟩ := instrRead_pc hi
  refine ⟨rfl, .inr ⟨rfl, hpc, hop, ?_⟩⟩
  obtain ⟨rfl, rfl, b, hb, hge, rfl⟩ | ⟨rfl, rfl, hmode, A, B, rfl, rfl, -, hB, -⟩ := h
  · obtain ⟨k, h1, hk, hbyte⟩ := byteAt_of_mem_registerBytes hi hb
    have hinfo : 8 ≤ (b.setWidth 9).toNat := by rw [BitVec.toNat_setWidth]; omega
    exact .inr (.inl ⟨rfl, rfl, hinfo, by simp, k, h1, hk, congrArg _ hbyte⟩)
  · have hinfo : (B.setWidth 9).toNat < 8 := by rw [BitVec.toNat_setWidth]; omega
    exact .inr (.inr (.inr ⟨rfl, rfl, hinfo, rfl, hmode⟩))

/-- After a step of a Running core that faults, the fault status registers tell the truth about the fault (R30, R87 to
R91). -/
theorem step_faultTold {s t : State} (hr : s.engine = .running) (hpc : s.pc.toNat ≤ 256) (h : step s = .next t)
    (hf : t.engine = .faulted) : t.FaultTold := by
  obtain ⟨hge, rfl⟩ | ⟨op, hlt, hop, hdec, rfl⟩ | ⟨o, hlt, hop, hend, rfl⟩ | ⟨i, c, k, n, hi, hraised, -, rfl⟩ |
    ⟨i, d, hd, v, -, -, rfl⟩ | ⟨r, -, v, -, -, rfl⟩ | ⟨-, rfl⟩ := step_next_cases hr h
  · have h256 : s.pc = 256 := BitVec.eq_of_toNat_eq (le_antisymm hpc hge)
    exact ⟨rfl, .inl ⟨rfl, rfl, h256, rfl, rfl, h256⟩⟩
  · exact ⟨rfl, .inr ⟨rfl, hlt, hop, .inr (.inr (.inl ⟨rfl, rfl, rfl, hdec⟩))⟩⟩
  · exact ⟨rfl, .inr ⟨rfl, hlt, hop, .inl ⟨rfl, rfl, rfl, by simp, hend⟩⟩⟩
  · exact faultTold_of_raisedBy hi hraised
  · simp [hr] at hf
  · simp [hr] at hf
  · cases hf

/-- A fault entry that tells the truth keeps the invariant. -/
theorem faultEntry_inv {s : State} {op : Option Byte} {cause : FaultCause} {kind : FaultKind} {info : Word9} (hs : s.Inv)
    (told : (faultEntry s op cause kind info).FaultTold) : (faultEntry s op cause kind info).Inv where
  memory := hs.memory
  pc := hs.pc
  filled := hs.filled
  idle := nofun
  noFault := fun h => absurd rfl h
  faultTold := fun _ => told

/-- A completed instruction keeps the invariant. -/
theorem Completes.inv {i : Instr} {s t : State} (h : Completes i s t) (hr : s.engine = .running) (hs : s.Inv) :
    t.Inv where
  memory := by rw [h.params, h.mem]; exact hs.memory
  pc := h.pc.trans_le (instrRead_end h.read)
  filled := fun hz j => h.regs_ne_none (hs.filled (h.params ▸ hz) j)
  idle := fun he => absurd he h.engine_ne_idle
  noFault := fun _ => h.faultRegs.trans (hs.noFault (by simp [hr]))
  faultTold := fun he => absurd he h.engine_ne_faulted

/-- Settles O37: a completed instruction keeps the invariant, a fault entry tells the truth, and outside Running nothing
changes. -/
theorem everyStepKeepsTheInvariant : Obligations.EveryStepKeepsTheInvariant := by
  intro s t hs h
  by_cases hr : s.engine = .running
  · obtain ⟨i, hc⟩ | hf := step_completes_or_entersFault hr h
    · exact hc.inv hr hs
    · have told := step_faultTold hr hs.pc h hf.engine
      obtain ⟨_, _, _, _, rfl, -⟩ := hf
      exact faultEntry_inv hs told
  · rw [step_not_running hr] at h
    cases h
    exact hs

end Sys2Proof.Machine

/-! PROOF. The program counter, the registers and the frame of a step (10_state.md sections 2 to 4). -/

namespace Sys2Proof.Machine

/-- `opcode[7:6]` as R23 writes it is the operand count of the opcode byte. -/
theorem extractLsb'_toNat_eq_operandCount (op : Byte) : (op.extractLsb' 6 2).toNat = operandCount op := by
  rw [BitVec.extractLsb'_toNat, Nat.shiftRight_eq_div_pow, operandCount]
  omega

/-- R23: a completed instruction advances the program counter by the length of the byte read as its opcode. -/
theorem Completes.pc_extract {i : Instr} {s t : State} (h : Completes i s t) :
    t.pc.toNat = s.pc.toNat + 1 + ((s.byteAt s.pc.toNat).extractLsb' 6 2).toNat := by
  rw [h.pc, extractLsb'_toNat_eq_operandCount, (instrRead_pc h.read).2, instrLength, Nat.add_assoc]

/-- A step that is not the model fault read a written opcode byte (R95). -/
theorem cell_pc_of_readsNoValue_eq_false {s : State} (h : readsNoValue s = false) (hpc : s.pc.toNat < 256) :
    s.cell s.pc.toNat = some (s.byteAt s.pc.toNat) := by
  cases hc : s.cell s.pc.toNat with
  | none => rw [readsNoValue_iff.2 (.inl ⟨hpc, hc⟩)] at h; cases h
  | some op => rw [State.byteAt_of_some hc]

/-- A step reported with a next state is the step itself, and every place it read holds a value (R95). -/
theorem step_of_reportedStep_next {s t : State} (hr : s.engine = .running) (h : reportedStep s = .next t) :
    step s = .next t ∧ readsNoValue s = false := by
  obtain ⟨-, -, hfault⟩ | ⟨hvalue, hnext⟩ := reportedStep_cases s
  · rw [hfault] at h; cases h
  · exact ⟨(hnext t).1 h, hvalue hr⟩

/-- Settles O55: a step completes the instruction it read or enters a fault. -/
theorem everyStepAdvancesOrIsAFaultEntry : Obligations.EveryStepAdvancesOrIsAFaultEntry := by
  intro s t hr h
  obtain ⟨i, hc⟩ | hf := step_completes_or_entersFault hr h
  · exact ⟨fun _ => hc.pc_extract, fun he => absurd he hc.engine_ne_faulted⟩
  · refine ⟨fun he => absurd hf.engine he, fun _ => ?_⟩
    obtain ⟨op, cause, kind, info, rfl, ⟨hpc, rfl⟩ | ⟨hpc, rfl⟩⟩ := hf
    · exact ⟨cause, kind, info, .inl ⟨hpc, rfl⟩⟩
    · exact ⟨cause, kind, info, .inr ⟨hpc, rfl⟩⟩

/-- Settles O10: fault entry leaves the program counter, and a completed instruction advances it by the written byte it
read. -/
theorem stepAdvancesByTheOpcodesLength : Obligations.StepAdvancesByTheOpcodesLength := by
  intro s t hr h
  obtain ⟨hstep, hvalue⟩ := step_of_reportedStep_next hr h
  obtain ⟨i, hc⟩ | hf := step_completes_or_entersFault hr hstep
  · have written := cell_pc_of_readsNoValue_eq_false hvalue (instrRead_pc hc.read).1
    exact ⟨fun he => absurd he hc.engine_ne_faulted, fun _ => ⟨_, written, hc.pc_extract⟩⟩
  · refine ⟨fun _ => ?_, fun he => absurd hf.engine he⟩
    obtain ⟨_, _, _, _, rfl, -⟩ := hf
    rfl

/-- Settles O8: the first check of the cycle, at the end of memory. -/
theorem fetchAtTheEndOfMemoryFaults : Obligations.FetchAtTheEndOfMemoryFaults := by
  intro s hr hpc
  have fetch : memRead s s.pc.toNat = .error ⟨.outOfRangeAccess, .memory, s.pc⟩ := by
    rw [memRead_of_ge hpc, BitVec.ofNat_toNat, BitVec.setWidth_eq]
  rw [step_running hr, cycle, fetch]
  rfl

/-- Settles O15: the branch of `step` outside Running (log entry 3). -/
theorem nothingExecutesOutsideRunning : Obligations.NothingExecutesOutsideRunning := fun _ => step_not_running

/-- Everything a step from any state did: it changed nothing, outside Running, or the Running core completed an instruction
or entered a fault. -/
theorem step_cases {s t : State} (h : step s = .next t) :
    (s.engine ≠ .running ∧ t = s) ∨ (s.engine = .running ∧ ((∃ i, Completes i s t) ∨ EntersFault s t)) := by
  by_cases hr : s.engine = .running
  · exact .inr ⟨hr, step_completes_or_entersFault hr h⟩
  · rw [step_not_running hr] at h
    cases h
    exact .inl ⟨hr, rfl⟩

/-- No step writes the model arguments, the count of resets or the memory. -/
theorem step_frame {s t : State} (h : step s = .next t) : t.params = s.params ∧ t.boot = s.boot ∧ t.mem = s.mem := by
  obtain ⟨-, rfl⟩ | ⟨-, ⟨i, hc⟩ | ⟨_, _, _, _, rfl, -⟩⟩ := step_cases h
  · exact ⟨rfl, rfl, rfl⟩
  · exact ⟨hc.params, hc.boot, hc.mem⟩
  · exact ⟨rfl, rfl, rfl⟩

/-- No step changes what a cell holds. -/
theorem step_cell {s t : State} (h : step s = .next t) (a : Nat) : t.cell a = s.cell a := by
  obtain ⟨hparams, -, hmem⟩ := step_frame h
  exact State.cell_congr hparams hmem a

/-- A register that a step changed is the destination of the instruction it completed (R18). -/
theorem completes_of_regs_ne {s t : State} {j : Fin 8} (h : step s = .next t) (hj : t.regs[j] ≠ s.regs[j]) :
    s.engine = .running ∧ ∃ i, Completes i s t ∧ destination i = some (BitVec.ofNat 8 j) := by
  obtain ⟨-, rfl⟩ | ⟨hr, ⟨i, hc⟩ | ⟨_, _, _, _, rfl, -⟩⟩ := step_cases h
  · exact absurd rfl hj
  · obtain e | ⟨-, hdest⟩ := hc.regs j
    · exact absurd e hj
    · exact ⟨hr, i, hc, hdest⟩
  · exact absurd rfl hj

/-- Settles O12: a completed instruction writes its destination alone, and with a destination it is not HLT. -/
theorem onlyLoadImmediateAndAluWriteRegisters : Obligations.OnlyLoadImmediateAndAluWriteRegisters := by
  intro s t j h hj
  obtain ⟨hr, i, hc, hdest⟩ := completes_of_regs_ne h hj
  have index : (BitVec.ofNat 8 j).toNat = j := by rw [BitVec.toNat_ofNat]; omega
  exact ⟨hr, i, _, hc.read, hdest, index, by rw [hc.engine, if_neg (ne_hlt_of_destination hdest)]⟩

/-- No step takes a value away from a register (R31). -/
theorem step_regs_ne_none {s t : State} (h : step s = .next t) {j : Fin 8} (hj : s.regs[j] ≠ none) :
    t.regs[j] ≠ none := by
  obtain ⟨-, rfl⟩ | ⟨-, ⟨i, hc⟩ | ⟨_, _, _, _, rfl, -⟩⟩ := step_cases h
  · exact hj
  · exact hc.regs_ne_none hj
  · exact hj

end Sys2Proof.Machine

/-! PROOF. The host's operations beside the step (10_state.md sections 4, 7 and 8): the engine state, what holds a value,
and what a read of nothing gives. -/

namespace Sys2Proof.Machine

/-! ### What a host operation leaves -/

/-- Everything `load` can do to the state: refuse and change nothing, or store bytes in Idle (R110). -/
theorem hostLoad_cases (bytes : List Int) (s : State) :
    (hostLoad bytes s).2 = s ∨ (s.engine = .idle ∧ ∃ bs, storeBytes s 0 bs = .ok (hostLoad bytes s).2) := by
  unfold hostLoad
  split
  · exact .inl rfl
  next hidle =>
    split
    · exact .inl rfl
    · split
      · exact .inl rfl
      · cases hstore : storeBytes s 0 (bytes.map (BitVec.ofInt 8)) with
        | ok t => exact .inr ⟨not_not.1 hidle, _, hstore⟩
        | error e => exact .inl rfl

/-- Everything a host operation other than reset can do: nothing, a store in Idle, or the start of a run (R110, R113,
R115). -/
theorem hostOp_cases {o : HostOp} (s : State) (ho : o ≠ .reset) :
    hostOp o s = s ∨ (s.engine = .idle ∧ ∃ bs, storeBytes s 0 bs = .ok (hostOp o s)) ∨
      (o = .run ∧ s.engine = .idle ∧ hostOp o s = s.setEngine .running) := by
  cases o with
  | reset => exact absurd rfl ho
  | load bytes => exact (hostLoad_cases bytes s).imp_right .inl
  | run =>
    by_cases hidle : s.engine = .idle
    · exact .inr (.inr ⟨rfl, hidle, by simp [hostOp, hostRun, hidle]⟩)
    · exact .inl (by simp [hostOp, hostRun, hidle])
  | status | trace | output => exact .inl rfl

/-- A host operation other than reset writes memory and engine state alone. -/
theorem hostOp_frame {o : HostOp} (s : State) (ho : o ≠ .reset) :
    hostOp o s = { s with mem := (hostOp o s).mem, engine := (hostOp o s).engine } := by
  obtain e | ⟨-, bs, hstore⟩ | ⟨-, -, e⟩ := hostOp_cases s ho
  · rw [e]
  · rw [storeBytes_frame hstore]
  · rw [e]; rfl

/-- MemWrite takes no value away from a cell (R31). -/
theorem memWrite_cell_ne_none {s t : State} {a b : Nat} {v : Byte} (h : memWrite s a v = .ok t) (hb : s.cell b ≠ none) :
    t.cell b ≠ none := by
  obtain ⟨-, rfl⟩ := memWrite_eq_ok.1 h
  by_cases hab : b = a
  · rw [hab, cell_write_self]; nofun
  · rwa [cell_write_of_ne s v hab]

/-- Storing bytes takes no value away from a cell (R31). -/
theorem storeBytes_cell_ne_none {s t : State} {a b : Nat} {bs : List Byte} (h : storeBytes s a bs = .ok t)
    (hb : s.cell b ≠ none) : t.cell b ≠ none := by
  induction bs generalizing s a with
  | nil => cases h; exact hb
  | cons v bs ih =>
    obtain ⟨u, hu, h⟩ := bind_eq_ok.1 h
    exact ih h (memWrite_cell_ne_none hu hb)

/-- No host operation but reset takes a value away from a cell (R31). -/
theorem hostOp_cell_ne_none {o : HostOp} {s : State} (ho : o ≠ .reset) {a : Nat} (ha : s.cell a ≠ none) :
    (hostOp o s).cell a ≠ none := by
  obtain e | ⟨-, bs, hstore⟩ | ⟨-, -, e⟩ := hostOp_cases s ho
  · rwa [e]
  · exact storeBytes_cell_ne_none hstore ha
  · rwa [e]

/-! ### The engine state -/

/-- A step that changes the engine state halts at HLT or faults (R27). -/
theorem step_engine_ne {s t : State} (h : step s = .next t) (he : t.engine ≠ s.engine) :
    s.engine = .running ∧ ((t.engine = .halted ∧ s.InstrRead .hlt) ∨ t.engine = .faulted) := by
  obtain ⟨-, rfl⟩ | ⟨hr, ⟨i, hc⟩ | hf⟩ := step_cases h
  · exact absurd rfl he
  · by_cases hi : i = .hlt
    · subst hi
      exact ⟨hr, .inl ⟨hc.engine, hc.read⟩⟩
    · exact absurd (by rw [hc.engine, if_neg hi, hr]) he
  · exact ⟨hr, .inr hf.engine⟩

/-- A host operation other than reset that changes the engine state starts a run (R27, R113). -/
theorem hostOp_engine_ne {o : HostOp} {s : State} (ho : o ≠ .reset) (he : (hostOp o s).engine ≠ s.engine) :
    o = .run ∧ s.engine = .idle ∧ (hostOp o s).engine = .running := by
  obtain e | ⟨-, bs, hstore⟩ | ⟨hrun, hidle, e⟩ := hostOp_cases s ho
  · exact absurd (congrArg State.engine e) he
  · exact absurd (congrArg State.engine (storeBytes_frame hstore)) he
  · exact ⟨hrun, hidle, congrArg State.engine e⟩

/-- Outside Idle no host operation but reset changes anything (R110, R113, R115). -/
theorem hostOp_of_ne_idle {o : HostOp} {s : State} (ho : o ≠ .reset) (hidle : s.engine ≠ .idle) : hostOp o s = s := by
  obtain e | ⟨h, -⟩ | ⟨-, h, -⟩ := hostOp_cases s ho
  · exact e
  · exact absurd h hidle
  · exact absurd h hidle

/-- Settles O16: the engine state over reset, the other host operations and the step, each by its own lemma. -/
theorem engineStateChangesOnlyByResetRunHaltAndFault : Obligations.EngineStateChangesOnlyByResetRunHaltAndFault := by
  refine ⟨fun _ => rfl, fun _ _ => hostOp_engine_ne, fun s hidle => ?_, fun _ _ => step_engine_ne, fun s hend => ?_⟩
  · simp [hostOp, hostRun, hidle]
  · have hr : s.engine ≠ .running := by obtain h | h := hend <;> rw [h] <;> nofun
    have hidle : s.engine ≠ .idle := by obtain h | h := hend <;> rw [h] <;> nofun
    exact ⟨step_not_running hr, fun _ ho => hostOp_of_ne_idle ho hidle⟩

/-! ### What holds a value, and what a read gives -/

/-- Settles O18: steps keep cells and keep values in registers; host operations keep registers and keep values in
cells. -/
theorem onlyResetTakesAValueAway : Obligations.OnlyResetTakesAValueAway := by
  refine ⟨fun s t h => ⟨fun j => step_regs_ne_none h, fun a ha => ?_⟩,
    fun o s ho => ⟨fun j hj => ?_, fun a => hostOp_cell_ne_none ho⟩⟩
  · rwa [step_cell h]
  · rwa [hostOp_frame s ho]

/-- What a register reads as depends on the register and the count of resets alone. -/
theorem readReg_congr {s t : State} {i : Fin 8} (hboot : t.boot = s.boot) (hreg : t.regs[i] = s.regs[i]) :
    readReg t i = readReg s i := by
  simp only [readReg, hboot, hreg]

/-- What a cell reads as depends on the cell and the count of resets alone. -/
theorem byteAt_congr {s t : State} {a : Nat} (hboot : t.boot = s.boot) (hcell : t.cell a = s.cell a) :
    t.byteAt a = s.byteAt a := by
  simp only [State.byteAt, hboot, hcell]

/-- Settles O53: a place reads as its content and the count of resets say, and only reset changes that count. -/
theorem readsOfNoValueGoOnWithTheSameByte : Obligations.ReadsOfNoValueGoOnWithTheSameByte := by
  refine ⟨fun s i => ⟨fun v h => ?_, fun h => ?_⟩, fun s a => ⟨fun v => State.byteAt_of_some, fun h => ?_⟩,
    fun s t h => ?_, fun o s ho => ?_⟩
  · exact regReads_iff.1 (.inl h)
  · exact regReads_iff.1 (.inr ⟨h, rfl⟩)
  · simp [State.byteAt, h]
  · obtain ⟨-, hboot, -⟩ := step_frame h
    exact ⟨fun i => readReg_congr hboot, fun a => byteAt_congr hboot (step_cell h a)⟩
  · have frame := hostOp_frame s ho
    have hboot := congrArg State.boot frame
    have hregs := congrArg State.regs frame
    exact ⟨fun i => readReg_congr hboot (by rw [hregs]), fun a => byteAt_congr hboot⟩

/-! ### Reset -/

/-- After a reset every register is what RESET_FILL says (R33). -/
theorem resetWith_regs (p : Params) (boot : Nat) (j : Fin 8) :
    (State.resetWith p boot).regs[j] = resetRegister p.resetFill := by
  simp [State.resetWith]

/-- After a reset every cell is what RESET_FILL says (R33). -/
theorem resetWith_cell (p : Params) (boot a : Nat) : (State.resetWith p boot).cell a = Memory.unlisted p.resetFill := rfl

/-- Settles O44: the registers and cells by RESET_FILL, every other piece as `State.resetWith` writes it. -/
theorem resetValues : Obligations.ResetValues := by
  intro s
  refine ⟨rfl, rfl, rfl, rfl, rfl, rfl, fun h => ⟨fun j => ?_, fun a _ => ?_⟩, fun h => ⟨fun j => ?_, fun a _ => ?_⟩⟩
  · rw [hostReset, resetWith_regs, h]; rfl
  · rw [hostReset, resetWith_cell, h]; rfl
  · rw [hostReset, resetWith_regs, h]; rfl
  · rw [hostReset, resetWith_cell, h]; rfl

/-- Settles O45: the registers and cells of a reset with RESET_FILL = ZERO. -/
theorem modelResetIsTheZeroFilledReset : Obligations.ModelResetIsTheZeroFilledReset :=
  ⟨rfl, rfl, resetWith_regs Config.resetParams 0, fun a _ => resetWith_cell Config.resetParams 0 a⟩

end Sys2Proof.Machine

/-! PROOF. The states the core reaches (10_state.md sections 3 and 7): the invariant holds in each, every step has a next
state, and every program counter from 0 to 256 is reached. -/

namespace Sys2Proof.Machine

/-! ### The invariant in every reached state -/

/-- The state after a reset meets the invariant. -/
theorem resetWith_inv (p : Params) (boot : Nat) : (State.resetWith p boot).Inv where
  memory := Memory.wf_reset p boot
  pc := Nat.zero_le 256
  filled := fun hz j => by rw [resetWith_regs, show p.resetFill = .zero from hz]; nofun
  idle := fun _ => ⟨rfl, rfl, rfl⟩
  noFault := fun _ => rfl
  faultTold := nofun

/-- In Idle the invariant says nothing of the memory but its form. -/
theorem inv_withMem {s : State} {m : Memory} (hs : s.Inv) (hidle : s.engine = .idle)
    (hm : Memory.wf s.params.resetFill m = true) : ({ s with mem := m } : State).Inv where
  memory := hm
  pc := hs.pc
  filled := hs.filled
  idle := hs.idle
  noFault := hs.noFault
  faultTold := fun hf => nomatch hidle.symm.trans hf

/-- The start of a run in Idle keeps the invariant. -/
theorem inv_setEngine_running {s : State} (hs : s.Inv) (hidle : s.engine = .idle) : (s.setEngine .running).Inv where
  memory := hs.memory
  pc := hs.pc
  filled := hs.filled
  idle := nofun
  noFault := fun _ => hs.noFault (by simp [hidle])
  faultTold := nofun

/-- Every host operation keeps the invariant. -/
theorem hostOp_inv (o : HostOp) {s : State} (hs : s.Inv) : (hostOp o s).Inv := by
  by_cases ho : o = .reset
  · subst ho
    exact resetWith_inv s.params (s.boot + 1)
  · obtain e | ⟨hidle, bs, hstore⟩ | ⟨-, hidle, e⟩ := hostOp_cases s ho
    · rwa [e]
    · have hframe := storeBytes_frame hstore
      have hwf := storeBytes_wf hstore hs.memory
      rw [hframe] at hwf ⊢
      exact inv_withMem hs hidle hwf
    · rw [e]
      exact inv_setEngine_running hs hidle

/-- Every state the core reaches from reset meets the invariant. -/
theorem reached_inv {p : Params} {s : State} (h : Reached p s) : s.Inv := by
  induction h with
  | reset boot => exact resetWith_inv p boot
  | move _ m ih =>
    cases m with
    | host o => exact hostOp_inv o ih
    | step _ hstep => exact everyStepKeepsTheInvariant _ _ ih hstep

theorem step_params {s t : State} (h : step s = .next t) : t.params = s.params := (step_frame h).1

theorem hostOp_params (o : HostOp) (s : State) : (hostOp o s).params = s.params := by
  by_cases ho : o = .reset
  · subst ho; rfl
  · rw [hostOp_frame s ho]

/-- The model arguments of a reached state are those of its first reset (R6). -/
theorem reached_params {p : Params} {s : State} (h : Reached p s) : s.params = p := by
  induction h with
  | reset boot => rfl
  | move _ m ih =>
    cases m with
    | host o => exact (hostOp_params o _).trans ih
    | step _ hstep => exact (step_params hstep).trans ih

/-! ### Every step has a next state -/

/-- Every execute part has a next state: `exec_cases` names one in each case. -/
theorem exec_next (i : Instr) (s : State) : ∃ t, exec i s = .next t := by
  obtain ⟨_, _, _, -, e⟩ | ⟨_, _, _, -, -, e⟩ | ⟨-, e⟩ | ⟨_, _, _, -, e⟩ := exec_cases i s <;> exact ⟨_, e⟩

/-- Every cycle has a next state. -/
theorem cycle_next (s : State) : ∃ t, cycle s = .next t := by
  obtain ⟨-, e⟩ | ⟨_, -, -, -, e⟩ | ⟨_, -, -, -, e⟩ | ⟨i, -, e⟩ := cycle_cases s
  · exact ⟨_, e⟩
  · exact ⟨_, e⟩
  · exact ⟨_, e⟩
  · obtain ⟨u, hu⟩ := exec_next i s
    exact ⟨_, by rw [e, hu]; rfl⟩

/-- Every step has a next state. -/
theorem step_next (s : State) : ∃ t, step s = .next t := by
  by_cases hr : s.engine = .running
  · rw [step_running hr]
    exact cycle_next s
  · exact ⟨s, step_not_running hr⟩

/-- With RESET_FILL = ZERO every cell holds a value (R31). -/
theorem memory_read_zero_ne_none (m : Memory) (a : Nat) : Memory.read .zero m a ≠ none := by
  induction m with
  | nil => nofun
  | cons c m ih =>
    rw [Memory.read]
    split
    · nofun
    · exact ih

/-- With RESET_FILL = ZERO a state that meets the invariant reads nothing that holds no value (R31). -/
theorem readsNoValue_eq_false_of_zero {s : State} (hs : s.Inv) (hz : s.params.resetFill = .zero) :
    readsNoValue s = false := by
  have cell_held (a : Nat) : s.cell a ≠ none := by
    rw [State.cell, hz]
    exact memory_read_zero_ne_none s.mem a
  by_contra h
  obtain ⟨-, hcell⟩ | ⟨_, _, -, -, -, -, hcell⟩ | ⟨i, -, hsource⟩ := readsNoValue_iff.1 (eq_true_of_ne_false h)
  · exact cell_held _ hcell
  · exact cell_held _ hcell
  · obtain ⟨-, b, -, hb, hreg⟩ := sourcesHoldNoValue_iff.1 hsource
    exact hs.filled hz ⟨b.toNat, hb⟩ hreg

/-- With RESET_FILL = ZERO no step from a state that meets the invariant is reported as the model fault. -/
theorem reportedStep_ne_fault_of_zero {s : State} (r : ModelFault) (hs : s.Inv) (hz : s.params.resetFill = .zero) :
    reportedStep s ≠ .fault r := by
  intro h
  obtain ⟨-, hreads, -⟩ := reportedStep_fault.1 h
  rw [readsNoValue_eq_false_of_zero hs hz] at hreads
  cases hreads

/-- Settles O52: the execute part and the step are total, and with RESET_FILL = ZERO everything holds a value. -/
theorem everyInstructionAndEveryStepHasANextState : Obligations.EveryInstructionAndEveryStepHasANextState :=
  ⟨exec_next, step_next, fun _ => reportedStep_ne_fault_of_zero,
    fun _ _ r hz h => reportedStep_ne_fault_of_zero r (reached_inv h) (by rw [reached_params h, hz])⟩

end Sys2Proof.Machine

/-! PROOF. What the seven instructions do whatever is read (10_state.md section 7; log entry 13). -/

namespace Sys2Proof.Machine

/-- LDI with a register index writes its immediate (R69). -/
theorem exec_ldi_of_lt {r : Byte} (hr : r.toNat < 8) (imm : Byte) (s : State) :
    exec (.ldi r imm) s = .next (s.writeReg ⟨r.toNat, hr⟩ imm) := by
  simp [exec, execLdi, executeLdi, regIndex_of_lt hr, concluded, immediate]

/-- PRN emits what its register reads as (R70). -/
theorem exec_prn_of_regReads {r : Byte} {hr : r.toNat < 8} {s : State} {v : Byte} (hv : s.RegReads ⟨r.toNat, hr⟩ v) :
    exec (.prn r) s = .next (s.emit v) := by
  simp [exec, execPrn, executePrn, regIndex_of_lt hr, concluded, regReads_iff.1 hv]

/-- ExecuteALU that does not divide by zero writes the result of what its registers read as (R75). -/
theorem executeAlu_of_regReads {kind : AluKind} {A B : Byte} {hA : A.toNat < 8} {hB : B.toNat < 8} {s : State} {x y : Byte}
    (hx : s.RegReads ⟨A.toNat, hA⟩ x) (hy : s.RegReads ⟨B.toNat, hB⟩ y)
    (hz : dividesByZero s.params.divMode kind y = false) :
    executeAlu kind A B s = .ok (s.writeReg ⟨A.toNat, hA⟩ (alu s.params.divMode kind x y)) := by
  simp [executeAlu, regIndex_of_lt hA, regIndex_of_lt hB, regReads_iff.1 hx, regReads_iff.1 hy, hz]

/-- A step whose execute part completes advances by the instruction's length, written as a number. -/
theorem step_of_exec_next_of_length {s t : State} {i : Instr} {n : Nat} (hr : s.engine = .running)
    (hi : s.InstrRead i) (hlen : instrLength i.opcode.byte = n) (h : exec i s = .next t) (he : t.engine ≠ .faulted) :
    step s = .next { t with pc := t.pc + BitVec.ofNat 9 n } := by
  subst hlen
  exact step_of_exec_next hr hi h he

/-- The rule of log entry 13 for the ALU instruction of one kind: its result is the ALU's wherever the rule applies. -/
theorem aluGoesOn_of_alu {mk : Byte → Byte → Instr} {kind : AluKind} {applies : Params → Byte → Prop}
    {result : Params → Byte → Byte → Byte}
    (hmk : ∀ A B, (mk A B = .mul A B ∧ kind = .mul) ∨ (mk A B = .div A B ∧ kind = .div) ∨
      (mk A B = .add A B ∧ kind = .add) ∨ (mk A B = .sub A B ∧ kind = .sub))
    (happ : ∀ p y, applies p y → dividesByZero p.divMode kind y = false)
    (hres : ∀ p x y, alu p.divMode kind x y = result p x y) : AluGoesOn mk applies result := by
  intro A B hA hB s x y hx hy ha
  have hexec : exec (mk A B) s = .next (s.writeReg ⟨A.toNat, hA⟩ (result s.params x y)) := by
    rw [exec_alu (hmk A B), executeAlu_of_regReads hx hy (happ _ _ ha), hres]; rfl
  have hlen : instrLength (mk A B).opcode.byte = 3 := by
    rcases hmk A B with ⟨e, -⟩ | ⟨e, -⟩ | ⟨e, -⟩ | ⟨e, -⟩ <;> rw [e] <;> exact instrLength_byte _
  exact ⟨hexec, fun hr hi => step_of_exec_next_of_length hr hi hlen hexec (by simp [hr])⟩

/-- A kind other than the divide divides by nothing. -/
theorem dividesByZero_of_ne_div {mode : DivMode} {kind : AluKind} {b : Byte} (h : kind ≠ .div) :
    dividesByZero mode kind b = false :=
  eq_false_of_ne_true fun hz => h (dividesByZero_eq_true.1 hz).1

/-- In DIVIDE mode DIV by a register that reads as 0 raises DivideByZero (R91). -/
theorem exec_div_of_regReads_zero {A B : Byte} (hA : A.toNat < 8) {hB : B.toNat < 8} {s : State}
    (hmode : s.params.divMode = .divide) (hy : s.RegReads ⟨B.toNat, hB⟩ 0) :
    exec (.div A B) s = .next (faultEntry s (some 0xA3) .divideByZero .memory (B.setWidth 9)) := by
  have hz : dividesByZero s.params.divMode .div (readReg s ⟨B.toNat, hB⟩) = true :=
    dividesByZero_eq_true.2 ⟨rfl, hmode, regReads_iff.1 hy⟩
  have halu : executeAlu .div A B s = .error ⟨.divideByZero, .memory, B.setWidth 9⟩ := by
    simp [executeAlu, regIndex_of_lt hA, regIndex_of_lt hB, hz]
  rw [exec, execDiv, halu]; rfl

/-- Settles O54: each instruction's execute part by what it reads, and the advance after it. -/
theorem instructionsGoOnWithUnwrittenBytes : Obligations.InstructionsGoOnWithUnwrittenBytes := by
  refine ⟨fun r imm hr s hrun hi => ?_, fun r hr s v hv => ⟨exec_prn_of_regReads hv, fun hrun hi => ?_⟩,
    fun s hrun hi => ?_, ?_, ?_, ?_, ?_, fun A B hA hB s => exec_div_of_regReads_zero hA⟩
  · exact step_of_exec_next_of_length hrun hi (instrLength_byte .ldi) (exec_ldi_of_lt hr imm s) (by simp [hrun])
  · exact step_of_exec_next_of_length hrun hi (instrLength_byte .prn) (exec_prn_of_regReads hv) (by simp [hrun])
  · exact step_of_exec_next_of_length hrun hi (instrLength_byte .hlt) (t := s.setEngine .halted) rfl nofun
  · exact aluGoesOn_of_alu (kind := .mul) (fun _ _ => .inl ⟨rfl, rfl⟩) (fun _ _ _ => dividesByZero_of_ne_div nofun)
      fun _ _ _ => rfl
  · refine aluGoesOn_of_alu (kind := .div) (fun _ _ => .inr (.inl ⟨rfl, rfl⟩)) (fun p y ha => ?_) fun p x y => ?_
    · refine eq_false_of_ne_true fun hz => ?_
      obtain ⟨-, hmode, h0⟩ := dividesByZero_eq_true.1 hz
      exact ha hmode h0
    · cases hmode : p.divMode <;> rfl
  · exact aluGoesOn_of_alu (kind := .add) (fun _ _ => .inr (.inr (.inl ⟨rfl, rfl⟩)))
      (fun _ _ _ => dividesByZero_of_ne_div nofun) fun _ _ _ => rfl
  · exact aluGoesOn_of_alu (kind := .sub) (fun _ _ => .inr (.inr (.inr ⟨rfl, rfl⟩)))
      (fun _ _ _ => dividesByZero_of_ne_div nofun) fun _ _ _ => rfl

end Sys2Proof.Machine

/-! PROOF. Noninterference of the output and the fault status registers (10_state.md section 6; 60_exceptions.md
section 9). -/

namespace Sys2Proof.Machine

/-- Two outcomes, reached from `s` and `t`: next states that agree on all a program depends on, with the same values
emitted. -/
def StepAlike (s t : State) (a b : Host.Outcome State Fault Refusal) : Prop :=
  ∃ u v, a = .next u ∧ b = .next v ∧ SameProgramView u v ∧
    ∃ emitted, u.out = s.out ++ emitted ∧ v.out = t.out ++ emitted

section
variable {s t : State} (h : SameProgramView s t)
include h

/-! ### Reads agree -/

theorem SameProgramView.cell_eq (a : Nat) : s.cell a = t.cell a := by
  obtain ⟨hparams, -, hmem, -⟩ := h
  exact State.cell_congr hparams hmem a

theorem SameProgramView.readReg_eq (i : Fin 8) : readReg s i = readReg t i := by
  obtain ⟨-, hboot, -, hregs, -⟩ := h
  exact readReg_congr hboot (by rw [hregs])

theorem SameProgramView.memRead_eq (a : Nat) : memRead s a = memRead t a := by
  obtain ⟨-, hboot, -⟩ := id h
  simp only [memRead, byteAt_congr hboot (h.cell_eq a)]

theorem SameProgramView.fetchBytes_eq (a n : Nat) : fetchBytes s a n = fetchBytes t a n := by
  induction n generalizing a with
  | zero => rfl
  | succ n ih => simp only [fetchBytes, h.memRead_eq, ih]

theorem SameProgramView.cellsHoldNoValue_eq (a n : Nat) : cellsHoldNoValue s a n = cellsHoldNoValue t a n := by
  induction n generalizing a with
  | zero => rfl
  | succ n ih => simp only [cellsHoldNoValue, h.cell_eq, ih]

theorem SameProgramView.sourcesHoldNoValue_eq (i : Instr) : sourcesHoldNoValue s i = sourcesHoldNoValue t i := by
  obtain ⟨-, -, -, hregs, -⟩ := h
  have registers : registerHoldsNoValue s = registerHoldsNoValue t := by
    funext b
    simp only [registerHoldsNoValue, hregs]
  simp only [sourcesHoldNoValue, registers]

theorem SameProgramView.readsNoValue_eq : readsNoValue s = readsNoValue t := by
  obtain ⟨-, -, -, -, hpc, -⟩ := id h
  simp only [readsNoValue, hpc, h.memRead_eq, h.fetchBytes_eq, h.cellsHoldNoValue_eq, h.sourcesHoldNoValue_eq]

/-! ### Each part of the step acts alike -/

theorem SameProgramView.raised_alike (op : Option Byte) (e : Raise) : StepAlike s t (raised s op e) (raised t op e) := by
  obtain ⟨hparams, hboot, hmem, hregs, hpc, -⟩ := h
  exact ⟨_, _, rfl, rfl, ⟨hparams, hboot, hmem, hregs, hpc, rfl⟩, [], by simp, by simp⟩

theorem SameProgramView.writeReg_alike (i : Fin 8) (v : Byte) :
    StepAlike s t (.next (s.writeReg i v)) (.next (t.writeReg i v)) := by
  obtain ⟨hparams, hboot, hmem, hregs, hpc, hengine⟩ := h
  exact ⟨_, _, rfl, rfl, ⟨hparams, hboot, hmem, by simp [hregs], hpc, hengine⟩, [], by simp, by simp⟩

theorem SameProgramView.emit_alike (v : Byte) : StepAlike s t (.next (s.emit v)) (.next (t.emit v)) :=
  ⟨_, _, rfl, rfl, h, [v], rfl, rfl⟩

theorem SameProgramView.setEngine_alike (e : EngineState) :
    StepAlike s t (.next (s.setEngine e)) (.next (t.setEngine e)) := by
  obtain ⟨hparams, hboot, hmem, hregs, hpc, -⟩ := h
  exact ⟨_, _, rfl, rfl, ⟨hparams, hboot, hmem, hregs, hpc, rfl⟩, [], by simp, by simp⟩

theorem SameProgramView.executeAlu_alike (kind : AluKind) (A B op : Byte) :
    StepAlike s t (concluded s op (executeAlu kind A B s)) (concluded t op (executeAlu kind A B t)) := by
  obtain ⟨hparams, -⟩ := id h
  unfold executeAlu
  obtain ⟨hA, eA⟩ | ⟨-, eA⟩ := regIndex_cases A
  · obtain ⟨hB, eB⟩ | ⟨-, eB⟩ := regIndex_cases B
    · simp only [eA, eB, ok_bind, hparams, h.readReg_eq]
      split
      · exact h.raised_alike _ _
      · exact h.writeReg_alike _ _
    · simp only [eA, eB, ok_bind, error_bind]
      exact h.raised_alike _ _
  · simp only [eA, error_bind]
    exact h.raised_alike _ _

theorem SameProgramView.exec_alike (i : Instr) : StepAlike s t (exec i s) (exec i t) := by
  cases i with
  | ldi r imm =>
    simp only [exec, execLdi, executeLdi]
    obtain ⟨hr, er⟩ | ⟨-, er⟩ := regIndex_cases r
    · rw [er]; exact h.writeReg_alike _ _
    · rw [er]; exact h.raised_alike _ _
  | prn r =>
    simp only [exec, execPrn, executePrn, h.readReg_eq]
    obtain ⟨hr, er⟩ | ⟨-, er⟩ := regIndex_cases r
    · rw [er]; exact h.emit_alike _
    · rw [er]; exact h.raised_alike _ _
  | hlt => exact h.setEngine_alike .halted
  | mul A B => exact h.executeAlu_alike .mul A B _
  | div A B => exact h.executeAlu_alike .div A B _
  | add A B => exact h.executeAlu_alike .add A B _
  | sub A B => exact h.executeAlu_alike .sub A B _

end

/-- The advance keeps the agreement (R23). -/
theorem StepAlike.advanced_alike {s t : State} {a b : Host.Outcome State Fault Refusal} (op : Byte) (h : StepAlike s t a b) :
    StepAlike s t (advanced op a) (advanced op b) := by
  obtain ⟨u, v, rfl, rfl, hview, emitted, hu, hv⟩ := h
  obtain ⟨hparams, hboot, hmem, hregs, hpc, hengine⟩ := id hview
  simp only [advanced, hengine]
  split
  · exact ⟨u, v, rfl, rfl, hview, emitted, hu, hv⟩
  · exact ⟨_, _, rfl, rfl, ⟨hparams, hboot, hmem, hregs, by simp [hpc], hengine⟩, emitted, hu, hv⟩

/-- The cycle acts alike from two states that agree on all a program depends on: each of its checks reads the same. -/
theorem SameProgramView.cycle_alike {s t : State} (h : SameProgramView s t) : StepAlike s t (cycle s) (cycle t) := by
  obtain ⟨-, -, -, -, hpc, -⟩ := id h
  simp only [cycle, hpc, h.memRead_eq, h.fetchBytes_eq]
  cases memRead t t.pc.toNat with
  | error e => exact h.raised_alike _ _
  | ok op =>
    cases hdec : decodeOpcode op with
    | none => simp only [hdec]; exact h.raised_alike _ _
    | some o =>
      simp only [hdec]
      cases fetchBytes t (t.pc.toNat + 1) (operandCount op) with
      | error e => exact h.raised_alike _ _
      | ok bs => exact (h.exec_alike _).advanced_alike op

theorem SameProgramView.step_alike {s t : State} (h : SameProgramView s t) : StepAlike s t (step s) (step t) := by
  obtain ⟨-, -, -, -, -, hengine⟩ := id h
  by_cases hr : t.engine = .running
  · rw [step_running hr, step_running (hengine.trans hr)]
    exact h.cycle_alike
  · rw [step_not_running hr, step_not_running (hengine ▸ hr)]
    exact ⟨s, t, rfl, rfl, h, [], by simp, by simp⟩

/-- Settles O17: the steps act alike, and what the model fault depends on reads the same. -/
theorem stepsDoNotDependOnOutputOrFaultStatus : Obligations.StepsDoNotDependOnOutputOrFaultStatus := by
  intro s t h
  refine ⟨fun u hu => ?_, fun r hr => ?_⟩
  · obtain ⟨u', v, hs, ht, hview, hout⟩ := h.step_alike
    rw [hs] at hu
    cases hu
    exact ⟨v, ht, hview, hout⟩
  · obtain ⟨hrun, hreads, rfl⟩ := reportedStep_fault.1 hr
    obtain ⟨-, -, -, -, hpc, hengine⟩ := id h
    exact reportedStep_fault.2 ⟨hengine ▸ hrun, h.readsNoValue_eq ▸ hreads, by rw [hpc]⟩

end Sys2Proof.Machine

/-! PROOF. The program counters the core reaches (10_state.md R21): a program of PRN and HLT reaches each value. -/

namespace Sys2Proof.Machine

/-! ### A loaded program runs from address 0 -/

/-- Bytes are byte values, and `load` stores the bytes themselves (R112). -/
theorem hostLoad_of_bytes {s : State} (hidle : s.engine = .idle) (bs : List Byte) (hlen : bs.length ≤ 256) :
    ∃ t, hostLoad (bs.map fun b => (b.toNat : Int)) s = (.ok, t) ∧ storeBytes s 0 bs = .ok t ∧
      ∀ (k : Nat) (hk : k < bs.length), t.cell k = some bs[k] := by
  obtain ⟨t, hstore, hcells, -⟩ := storeBytes_spec bs s 0 (by simpa using hlen)
  have values : ((bs.map fun b => (b.toNat : Int)).any fun v => !isByteValue v) = false := by
    simpa [isByteValue] using fun (b : Byte) (_ : b ∈ bs) => b.isLt
  have stored : (bs.map fun b => (b.toNat : Int)).map (BitVec.ofInt 8) = bs := by
    simp [Function.comp_def]
  refine ⟨t, ?_, hstore, fun k hk => by simpa using hcells k hk⟩
  simp only [hostLoad, hidle, values, stored, hstore, List.length_map]
  rw [if_neg (by simp), if_neg (by simp), if_neg (by omega)]

/-- A program of up to 256 bytes is reached, loaded and Running at address 0 (R116). -/
theorem reached_boot (p : Params) (bs : List Byte) (hlen : bs.length ≤ 256) :
    ∃ s, Reached p s ∧ s.engine = .running ∧ s.pc = 0 ∧ ∀ (k : Nat) (hk : k < bs.length), s.cell k = some bs[k] := by
  obtain ⟨t, hload, hstore, hcells⟩ := hostLoad_of_bytes (s := State.resetWith p 0) rfl bs hlen
  have loaded : Reached p t := by
    have := Reached.move (.reset 0) (Move.host (s := State.resetWith p 0) (.load (bs.map fun b => (b.toNat : Int))))
    rwa [hostOp, hload] at this
  have hframe := storeBytes_frame hstore
  have hidle : t.engine = .idle := congrArg State.engine hframe
  have hrun : hostOp .run t = t.setEngine .running := by simp [hostOp, hostRun, hidle]
  have reached : Reached p (t.setEngine .running) := hrun ▸ loaded.move (.host .run)
  exact ⟨_, reached, rfl, congrArg State.pc hframe, hcells⟩

/-! ### Walking through PRN -/

/-- `n` bytes that a run walks through to the end: PRN R0 as often as it fits, then HLT where one byte is left. -/
def walkProgram (n : Nat) : List Byte :=
  (List.range n).map fun k => if k % 2 = 1 then 0 else if k + 1 = n then Opcode.byte .hlt else Opcode.byte .prn

theorem walkProgram_length (n : Nat) : (walkProgram n).length = n := by simp [walkProgram]

/-- A Running core at a written PRN R0 steps past it, still Running. -/
theorem step_prn {s : State} (hr : s.engine = .running) (hpc : s.pc.toNat + 1 < 256)
    (hop : s.cell s.pc.toNat = some (Opcode.byte .prn)) (hreg : s.cell (s.pc.toNat + 1) = some 0) :
    ∃ t, step s = .next t ∧ t.engine = .running ∧ t.pc.toNat = s.pc.toNat + 2 := by
  have operand : fetchBytes s (s.pc.toNat + 1) (operandCount (Opcode.byte .prn)) = .ok [0] :=
    fetchBytes_ok.2 ⟨rfl, fun k hk => by
      obtain rfl : k = 0 := by simpa using hk
      exact ⟨hpc, State.byteAt_of_some hreg⟩⟩
  have read : s.InstrRead (.prn 0) :=
    instrRead_of_fetch (o := .prn) (by omega) (State.byteAt_of_some hop) operand
  have hexec : exec (.prn 0) s = .next (s.emit (readReg s 0)) :=
    exec_prn_of_regReads (hr := by decide) (regReads_readReg s 0)
  exact ⟨_, step_of_exec_next hr read hexec (by simp [hr]), hr, advance_toNat read⟩

/-- A Running core at a written HLT steps past it. -/
theorem step_hlt {s : State} (hr : s.engine = .running) (hpc : s.pc.toNat < 256)
    (hop : s.cell s.pc.toNat = some (Opcode.byte .hlt)) : ∃ t, step s = .next t ∧ t.pc.toNat = s.pc.toNat + 1 := by
  have read : s.InstrRead .hlt := instrRead_of_fetch (o := .hlt) (bs := []) hpc (State.byteAt_of_some hop) rfl
  exact ⟨_, step_of_exec_next hr read (t := s.setEngine .halted) rfl nofun, advance_toNat read⟩

/-- After `k` instructions PRN R0 at addresses 0 up, the core is Running at address `2 * k`. -/
theorem reached_after_prns {p : Params} {s : State} (hs : Reached p s) (hr : s.engine = .running) (hpc : s.pc = 0)
    (k : Nat) (hk : 2 * k ≤ 256)
    (hprn : ∀ j < k, s.cell (2 * j) = some (Opcode.byte .prn) ∧ s.cell (2 * j + 1) = some 0) :
    ∃ t, Reached p t ∧ t.engine = .running ∧ t.pc.toNat = 2 * k ∧ ∀ a, t.cell a = s.cell a := by
  induction k with
  | zero => exact ⟨s, hs, hr, by rw [hpc]; rfl, fun _ => rfl⟩
  | succ k ih =>
    obtain ⟨t, ht, htr, htpc, hcell⟩ := ih (by omega) fun j hj => hprn j (by omega)
    obtain ⟨hop, hreg⟩ := hprn k (by omega)
    rw [← hcell, ← htpc] at hop hreg
    obtain ⟨u, hstep, hur, hupc⟩ := step_prn htr (by omega) hop hreg
    exact ⟨u, ht.move (.step htr hstep), hur, by omega, fun a => (step_cell hstep a).trans (hcell a)⟩

/-- Each value from 0 to 256 is the program counter of a reached state: the one at the end of `walkProgram`. -/
theorem exists_reached_pc (p : Params) {n : Nat} (hn : n ≤ 256) : ∃ s, Reached p s ∧ s.pc.toNat = n := by
  obtain ⟨s, hs, hr, hpc, hcells⟩ := reached_boot p (walkProgram n) (by rwa [walkProgram_length])
  have program (k : Nat) (hk : k < n) : s.cell k =
      some (if k % 2 = 1 then 0 else if k + 1 = n then Opcode.byte .hlt else Opcode.byte .prn) := by
    rw [hcells k (by rwa [walkProgram_length])]
    simp [walkProgram]
  have prns (j : Nat) (hj : j < n / 2) :
      s.cell (2 * j) = some (Opcode.byte .prn) ∧ s.cell (2 * j + 1) = some 0 := by
    rw [program _ (by omega), program _ (by omega), if_neg (by omega), if_neg (by omega), if_pos (by omega)]
    exact ⟨rfl, rfl⟩
  obtain ⟨t, ht, htr, htpc, hcell⟩ := reached_after_prns hs hr hpc (n / 2) (by omega) prns
  by_cases heven : n % 2 = 0
  · exact ⟨t, ht, by omega⟩
  · have hlt : t.cell t.pc.toNat = some (Opcode.byte .hlt) := by
      rw [hcell, htpc, program _ (by omega), if_neg (by omega), if_pos (by omega)]
    obtain ⟨u, hstep, hupc⟩ := step_hlt htr (by omega) hlt
    exact ⟨u, ht.move (.step htr hstep), by omega⟩

/-- Settles O40: the bound is the invariant's, and a walk through PRN and HLT ends at each value. -/
theorem programCounterReachesExactly0To256 : Obligations.ProgramCounterReachesExactly0To256 :=
  ⟨fun _ _ h => (reached_inv h).pc, fun _ hn => ⟨Config.specDefault, exists_reached_pc _ hn⟩⟩

end Sys2Proof.Machine

/-! PROOF. MemRead and MemWrite (20_memory.md section 2): each inside and outside the memory, and a read after a write. -/

namespace Sys2Proof.Machine

/-- A cell that holds no value has its free value (R31; log entry 13). -/
theorem State.byteAt_of_none {s : State} {a : Nat} (h : s.cell a = none) :
    s.byteAt a = Config.unwrittenCell s.boot a := by
  simp [State.byteAt, h]

/-- MemRead gives the value of a cell in range that holds one (R37). -/
theorem memRead_of_some {s : State} {a : Nat} {v : Byte} (ha : a < 256) (h : s.cell a = some v) :
    memRead s a = .ok v :=
  memRead_ok.2 ⟨ha, State.byteAt_of_some h⟩

/-- MemRead gives the free value of a cell in range that holds none (log entry 13). -/
theorem memRead_of_none {s : State} {a : Nat} (ha : a < 256) (h : s.cell a = none) :
    memRead s a = .ok (Config.unwrittenCell s.boot a) :=
  memRead_ok.2 ⟨ha, State.byteAt_of_none h⟩

/-- What MemRead answers depends on the address, its cell and the count of resets alone. -/
theorem memRead_congr {s t : State} {a : Nat} (hboot : t.boot = s.boot) (hcell : t.cell a = s.cell a) :
    memRead t a = memRead s a := by
  simp only [memRead, byteAt_congr hboot hcell]

/-- MemWrite in range succeeds with one write of the memory (R38). -/
theorem memWrite_of_lt (s : State) {a : Nat} (v : Byte) (h : a < 256) :
    memWrite s a v = .ok { s with mem := Memory.write s.params.resetFill s.mem a v } := memWrite_eq_ok.2 ⟨h, rfl⟩

/-- MemWrite out of range raises the memory's fault (R38). -/
theorem memWrite_of_ge {s : State} {a : Nat} {v : Byte} (h : 256 ≤ a) :
    memWrite s a v = .error ⟨.outOfRangeAccess, .memory, BitVec.ofNat 9 a⟩ := if_pos h

/-- MemRead after a MemWrite to the same address gives the value written (R45). -/
theorem memRead_memWrite_self {s t : State} {a : Nat} {v : Byte} (h : memWrite s a v = .ok t) :
    memRead t a = .ok v := by
  obtain ⟨ha, rfl⟩ := memWrite_eq_ok.1 h
  exact memRead_of_some ha (cell_write_self s a v)

/-- MemRead after a MemWrite to another address answers as before the write (R45). -/
theorem memRead_memWrite_of_ne {s t : State} {a b : Nat} {v : Byte} (h : memWrite s a v = .ok t) (hb : b ≠ a) :
    memRead t b = memRead s b := by
  obtain ⟨-, rfl⟩ := memWrite_eq_ok.1 h
  exact memRead_congr rfl (cell_write_of_ne s v hb)

/-- Settles O42: below 256 MemWrite is one write (`memWrite_of_lt`), and the two rules for a read after it apply. -/
theorem memWriteThenMemRead : Obligations.MemWriteThenMemRead := by
  refine fun s a v => ⟨memWrite_of_ge, fun ha => ?_⟩
  have written := memWrite_of_lt s v ha
  exact ⟨_, written, rfl, memRead_memWrite_self written, fun _ => memRead_memWrite_of_ne written⟩

/-- Settles O41: out of range, a cell that holds no value, and a cell that holds one. -/
theorem memReadRule : Obligations.MemReadRule :=
  fun _ _ => ⟨memRead_of_ge, memRead_of_none, fun _ => memRead_of_some⟩

end Sys2Proof.Machine

/-! PROOF. The canonical form of the memory is one form (20_memory.md section 1; log entry 8): its first entry stands at
the lowest address that does not read as an unlisted one, so memories that read alike agree entry by entry. -/

namespace Sys2Proof.Machine.Memory

variable {fill : ResetFill}

theorem read_cons_self (c : Host.Cell) (m : Memory) : read fill (c :: m) c.1 = some c.2 := if_pos rfl

theorem read_cons_of_ne {c : Host.Cell} {a : Nat} (m : Memory) (h : c.1 ≠ a) :
    read fill (c :: m) a = read fill m a := if_neg h

/-- The first entry of a canonical memory has the lowest address that does not read as an unlisted one. -/
theorem head_le_of_read_ne_unlisted {c : Host.Cell} {m : Memory} {lo a : Nat} (hm : wfFrom fill lo (c :: m) = true)
    (ha : read fill (c :: m) a ≠ unlisted fill) : c.1 ≤ a := by
  obtain ⟨-, hc⟩ := (wfFrom_cons lo c m).1 hm
  have from_head : wfFrom fill c.1 (c :: m) = true := (wfFrom_cons c.1 c m).2 ⟨le_rfl, hc⟩
  exact not_lt.1 fun hlt => ha (read_of_lt_wfFrom from_head hlt)

/-- The address of a canonical memory's first entry does not read as an unlisted one. -/
theorem read_head_ne_unlisted {c : Host.Cell} {m : Memory} {lo : Nat} (hm : wfFrom fill lo (c :: m) = true) :
    read fill (c :: m) c.1 ≠ unlisted fill := by
  obtain ⟨-, -, hne, -⟩ := (wfFrom_cons lo c m).1 hm
  rw [read_cons_self]
  exact hne.symm

/-- A canonical memory with an entry does not read like the empty one. -/
theorem not_read_cons_eq_nil {c : Host.Cell} {m : Memory} {lo : Nat} (hm : wfFrom fill lo (c :: m) = true) :
    ¬ ∀ a, a < 256 → read fill (c :: m) a = read fill [] a := by
  obtain ⟨-, hlt, -, -⟩ := (wfFrom_cons lo c m).1 hm
  exact fun h => read_head_ne_unlisted hm (h c.1 hlt)

/-- Canonical memories that read alike have the same first entry. -/
theorem head_eq_of_read_eq {c d : Host.Cell} {m n : Memory} {lo lo' : Nat} (hm : wfFrom fill lo (c :: m) = true)
    (hn : wfFrom fill lo' (d :: n) = true) (h : ∀ a, a < 256 → read fill (c :: m) a = read fill (d :: n) a) :
    c = d := by
  obtain ⟨-, hc, -, -⟩ := (wfFrom_cons lo c m).1 hm
  obtain ⟨-, hd, -, -⟩ := (wfFrom_cons lo' d n).1 hn
  have hle : c.1 ≤ d.1 := head_le_of_read_ne_unlisted hm (h d.1 hd ▸ read_head_ne_unlisted hn)
  have hge : d.1 ≤ c.1 := head_le_of_read_ne_unlisted hn (h c.1 hc ▸ read_head_ne_unlisted hm)
  have haddr : c.1 = d.1 := le_antisymm hle hge
  have hval : some c.2 = some d.2 := by
    rw [← read_cons_self (fill := fill) c m, h c.1 hc, haddr, read_cons_self]
  exact Prod.ext haddr (Option.some.inj hval)

/-- Canonical memories with the same first entry that read alike have tails that read alike. -/
theorem read_tail_eq {c : Host.Cell} {m n : Memory} {lo lo' : Nat} (hm : wfFrom fill lo (c :: m) = true)
    (hn : wfFrom fill lo' (c :: n) = true) (h : ∀ a, a < 256 → read fill (c :: m) a = read fill (c :: n) a)
    (a : Nat) (ha : a < 256) : read fill m a = read fill n a := by
  obtain ⟨-, -, -, hm⟩ := (wfFrom_cons lo c m).1 hm
  obtain ⟨-, -, -, hn⟩ := (wfFrom_cons lo' c n).1 hn
  by_cases hca : c.1 = a
  · rw [read_of_lt_wfFrom hm (by omega), read_of_lt_wfFrom hn (by omega)]
  · rw [← read_cons_of_ne m hca, h a ha, read_cons_of_ne n hca]

/-- Canonical memories that read alike at every address below 256 are equal, wherever their addresses begin. -/
theorem eq_of_wfFrom_of_read_eq {m n : Memory} {lo lo' : Nat} (hm : wfFrom fill lo m = true)
    (hn : wfFrom fill lo' n = true) (h : ∀ a, a < 256 → read fill m a = read fill n a) : m = n := by
  induction m generalizing lo lo' n with
  | nil =>
    cases n with
    | nil => rfl
    | cons d n => exact absurd (fun a ha => (h a ha).symm) (not_read_cons_eq_nil hn)
  | cons c m ih =>
    cases n with
    | nil => exact absurd h (not_read_cons_eq_nil hm)
    | cons d n =>
      obtain rfl := head_eq_of_read_eq hm hn h
      obtain ⟨-, -, -, hm'⟩ := (wfFrom_cons lo c m).1 hm
      obtain ⟨-, -, -, hn'⟩ := (wfFrom_cons lo' c n).1 hn
      rw [ih hm' hn' (read_tail_eq hm hn h)]

/-- Settles O43: the canonical form is `wfFrom` address 0. -/
theorem canonicalMemoriesThatReadAlikeAreEqual : Obligations.CanonicalMemoriesThatReadAlikeAreEqual :=
  fun _ _ _ hm hn h => eq_of_wfFrom_of_read_eq hm hn h

end Sys2Proof.Machine.Memory

/-! PROOF. Decoding and encoding (30_encoding.md sections 1 to 3, 6 and 8): the decoder reads the encodings and nothing
else. -/

namespace Sys2Proof

/-! ### The decoder on a list of bytes -/

/-- The operand bytes of an instruction's encoding make the instruction again (R55). -/
theorem withOperands_of_encode {i : Instr} {bs : List Byte} (h : encode i = i.opcode.byte :: bs) :
    i.opcode.withOperands (bs.getD 0 0) (bs.getD 1 0) = i := by
  obtain rfl : (encode i).tail = bs := congrArg List.tail h
  cases i <;> rfl

/-- An instruction takes its operands from the bytes its opcode counts: what stands after them is not read (R51, R55). -/
theorem withOperands_append {o : Opcode} {bs : List Byte} (h : bs.length = operandCount o.byte) (rest : List Byte) :
    o.withOperands ((bs ++ rest).getD 0 0) ((bs ++ rest).getD 1 0) = o.withOperands (bs.getD 0 0) (bs.getD 1 0) := by
  rw [operandCount_byte] at h
  cases o with
  | hlt => rfl
  | prn => obtain ⟨b, rfl⟩ := List.length_eq_one_iff.1 h; rfl
  | ldi | mul | div | add | sub => obtain ⟨b, c, rfl⟩ := List.length_eq_two.1 h; rfl

/-- An opcode byte and the operand bytes it counts decode, whatever follows (R52, R60). -/
theorem decode_byte_cons_append {o : Opcode} {bs : List Byte} (h : bs.length = operandCount o.byte) (rest : List Byte) :
    decode (o.byte :: (bs ++ rest)) = .ok (o.withOperands (bs.getD 0 0) (bs.getD 1 0), rest) := by
  have enough : ¬ (bs ++ rest).length < operandCount o.byte := by rw [List.length_append]; omega
  simp only [decode, decodeOpcode_byte, if_neg enough, withOperands_append h, List.drop_left' h]

/-- A list that decodes is an opcode byte, the operand bytes it counts, and the rest. -/
theorem exists_opcode_of_decode_ok {bytes rest : List Byte} {i : Instr} (h : decode bytes = .ok (i, rest)) :
    ∃ (o : Opcode) (bs : List Byte), bs.length = operandCount o.byte ∧ bytes = o.byte :: (bs ++ rest) := by
  cases bytes with
  | nil => cases h
  | cons op tail =>
    cases hdec : decodeOpcode op with
    | none => simp only [decode, hdec, reduceCtorEq] at h
    | some o =>
      obtain rfl := decodeOpcode_eq_some.1 hdec
      simp only [decode, hdec] at h
      split at h
      · cases h
      · next enough =>
        obtain ⟨-, rfl⟩ := Prod.mk.inj (Except.ok.inj h)
        exact ⟨o, tail.take (operandCount o.byte), List.length_take_of_le (Nat.le_of_not_lt enough),
          by rw [List.take_append_drop]⟩

/-- Decoding an encoding, whatever follows, gives the instruction and what follows. -/
theorem decode_encode_append (i : Instr) (rest : List Byte) : decode (encode i ++ rest) = .ok (i, rest) := by
  obtain ⟨bs, henc, hlen⟩ := encode_eq_cons i
  rw [henc, List.cons_append, decode_byte_cons_append hlen, withOperands_of_encode henc]

/-- Settles O2: an encoding decodes, and a list that decodes is an opcode byte with its operand bytes, which are the
encoding of the instruction they make. -/
theorem decodeReadsExactlyTheEncodings : Obligations.DecodeReadsExactlyTheEncodings := by
  refine fun bytes rest i => ⟨fun h => ?_, ?_⟩
  · obtain ⟨o, bs, hlen, rfl⟩ := exists_opcode_of_decode_ok h
    rw [decode_byte_cons_append hlen] at h
    obtain ⟨rfl, -⟩ := Prod.mk.inj (Except.ok.inj h)
    rw [encode_withOperands hlen, List.cons_append]
  · rintro rfl
    exact decode_encode_append i rest

/-! ### The opcode map and the encodings -/

/-- A byte that decodes to none is none of the seven opcodes (R54). -/
theorem ne_byte_of_decodeOpcode_eq_none {op : Byte} (h : decodeOpcode op = none) (o : Opcode) : op ≠ o.byte := by
  rintro rfl
  simp at h

/-- Two bytes of the same opcode are the same byte (R54). -/
theorem eq_of_decodeOpcode_eq_some {x y : Byte} {o : Opcode} (hx : decodeOpcode x = some o)
    (hy : decodeOpcode y = some o) : x = y :=
  (decodeOpcode_eq_some.1 hx).trans (decodeOpcode_eq_some.1 hy).symm

/-- Settles O1: a byte with an opcode is that opcode's byte, and each other byte passes by the seven. -/
theorem decodeComparesTheWholeOpcodeByte : Obligations.DecodeComparesTheWholeOpcodeByte := by
  refine ⟨fun op => ?_, fun x y hne heq => ?_⟩
  · cases hdec : decodeOpcode op with
    | none =>
      have other := ne_byte_of_decodeOpcode_eq_none hdec
      exact ((if_neg (other .ldi)).trans <| (if_neg (other .prn)).trans <| (if_neg (other .hlt)).trans <|
        (if_neg (other .mul)).trans <| (if_neg (other .div)).trans <| (if_neg (other .add)).trans <|
        if_neg (other .sub)).symm
    | some o =>
      obtain rfl := decodeOpcode_eq_some.1 hdec
      cases o <;> rfl
  · cases hx : decodeOpcode x with
    | none => rfl
    | some o => exact absurd (eq_of_decodeOpcode_eq_some hx (heq ▸ hx)) hne

/-- Settles O4: each row of R68's table is what `encode` answers for it. -/
theorem encodingIsOpcodeThenOperandBytes : Obligations.EncodingIsOpcodeThenOperandBytes :=
  ⟨fun _ _ => rfl, fun _ => rfl, rfl, fun _ _ => rfl, fun _ _ => rfl, fun _ _ => rfl, fun _ _ => rfl, rfl⟩

end Sys2Proof

/-! PROOF. The cycle and the decoder (30_encoding.md sections 5 to 7; 60_exceptions.md R88): a step runs the decoded
instruction, faults on an illegal opcode, and reads no other byte. -/

namespace Sys2Proof.Machine

/-! ### The step of a decoded instruction -/

/-- A step whose execute part faults is that part: nothing advances (R23). -/
theorem step_of_exec_faulted {s t : State} {i : Instr} (hr : s.engine = .running) (hi : s.InstrRead i)
    (h : exec i s = .next t) (he : t.engine = .faulted) : step s = .next t := by
  rw [step_running hr, cycle_of_instrRead hi, h, advanced, if_pos he]

/-- When the bytes from the program counter up decode, a step reads the decoded instruction there. -/
theorem instrRead_of_decode {s : State} {bytes rest : List Byte} {i : Instr}
    (hbytes : ∀ (k : Nat) (hk : k < bytes.length), s.pc.toNat + k < 256 ∧ s.byteAt (s.pc.toNat + k) = bytes[k])
    (h : decode bytes = .ok (i, rest)) : s.InstrRead i := by
  obtain rfl := (decodeReadsExactlyTheEncodings bytes rest i).1 h
  intro k
  obtain ⟨hrange, hbyte⟩ := hbytes k (by rw [List.length_append]; omega)
  exact ⟨hrange, hbyte.trans (List.getElem_append_left k.isLt)⟩

/-- Settles O7: the decoded instruction is the one the step reads, and its execute part completes or faults. -/
theorem stepRunsTheDecodedInstruction : Obligations.StepRunsTheDecodedInstruction := by
  intro s bytes rest i hr hbytes hdec
  have read := instrRead_of_decode hbytes hdec
  refine ⟨fun t h he => ?_, fun t h he => step_of_exec_faulted hr read h he⟩
  rw [step_of_exec_next hr read h he, encode_length]
  rfl

/-! ### Illegal opcodes -/

/-- A byte that counts three operand bytes is no opcode: none of the seven counts more than two (R51, R59). -/
theorem decodeOpcode_eq_none_of_operandCount {op : Byte} (h : operandCount op = 3) : decodeOpcode op = none := by
  cases hdec : decodeOpcode op with
  | none => rfl
  | some o =>
    obtain rfl := decodeOpcode_eq_some.1 hdec
    have := operandCount_byte_le o
    omega

/-- The numbers of the seven opcode bytes, in the table's order (R53). -/
def opcodeNumbers : List Nat := [Opcode.ldi, .prn, .hlt, .mul, .div, .add, .sub].map fun o => o.byte.toNat

/-- The byte of a number below 256 decodes exactly when the number is one of the seven (R53, R54). -/
theorem decodeOpcode_ofNat_ne_none {n : Nat} (hn : n < 256) :
    decodeOpcode (BitVec.ofNat 8 n) ≠ none ↔ n ∈ opcodeNumbers := by
  have as_byte (o : Opcode) : BitVec.ofNat 8 n = o.byte ↔ o.byte.toNat = n := by
    rw [BitVec.toNat_eq, BitVec.toNat_ofNat, Nat.mod_eq_of_lt hn, eq_comm]
  have every_opcode (o : Opcode) : o ∈ [Opcode.ldi, .prn, .hlt, .mul, .div, .add, .sub] := by cases o <;> decide
  simp only [Option.ne_none_iff_exists', decodeOpcode_eq_some, as_byte, opcodeNumbers, List.mem_map, every_opcode,
    true_and]

/-- 249 of the 256 bytes are illegal (R59): all but the seven. -/
theorem length_filter_illegal :
    ((List.range 256).filter fun n => decodeOpcode (BitVec.ofNat 8 n) == none).length = 249 := by
  have legal : ((List.range 256).filter fun n => !(decodeOpcode (BitVec.ofNat 8 n) == none)).Perm opcodeNumbers := by
    refine (List.perm_ext_iff_of_nodup (List.nodup_range.filter _) (by decide)).2 fun n => ?_
    have below : n ∈ opcodeNumbers → n < 256 := fun h => (by decide : ∀ k ∈ opcodeNumbers, k < 256) n h
    simp only [List.mem_filter, List.mem_range, Bool.not_eq_true', beq_eq_false_iff_ne]
    exact ⟨fun ⟨hn, h⟩ => (decodeOpcode_ofNat_ne_none hn).1 h,
      fun h => ⟨below h, (decodeOpcode_ofNat_ne_none (below h)).2 h⟩⟩
  have parts := List.length_eq_length_filter_add (l := List.range 256) fun n => decodeOpcode (BitVec.ofNat 8 n) == none
  rw [legal.length_eq, List.length_range, show opcodeNumbers.length = 7 from rfl] at parts
  omega

/-- The second check of the cycle: an opcode byte that decodes to none (R62, R88). -/
theorem step_of_decodeOpcode_eq_none {s : State} (hr : s.engine = .running) (hpc : s.pc.toNat < 256)
    (h : decodeOpcode (s.byteAt s.pc.toNat) = none) :
    step s = .next (faultEntry s (some (s.byteAt s.pc.toNat)) .unknownInstruction .memory
      ((s.byteAt s.pc.toNat).setWidth 9)) := by
  simp only [step_running hr, cycle, memRead_of_lt hpc, h]
  rfl

/-- Settles O6: all bytes but the seven are illegal, and the cycle's second check for a written byte. -/
theorem illegalOpcodeRaisesUnknownInstruction : Obligations.IllegalOpcodeRaisesUnknownInstruction := by
  refine ⟨length_filter_illegal, fun op => decodeOpcode_eq_none_of_operandCount, rfl, fun s op hr hpc hop hdec => ?_⟩
  obtain rfl := State.byteAt_of_some hop
  exact step_of_decodeOpcode_eq_none hr hpc hdec

/-! ### Another memory with the same instruction -/

section
variable (s : State) (m : Memory)

/-- The execute part of LDI does not read the memory (R69). -/
theorem executeLdi_withMem (r imm : Byte) :
    executeLdi r imm { s with mem := m } = (executeLdi r imm s).map fun t => { t with mem := m } := by
  unfold executeLdi
  cases regIndex r <;> rfl

/-- The execute part of PRN does not read the memory (R70). -/
theorem executePrn_withMem (r : Byte) :
    executePrn r { s with mem := m } = (executePrn r s).map fun t => { t with mem := m } := by
  unfold executePrn
  cases regIndex r <;> rfl

/-- The execute part of an ALU instruction does not read the memory (R75). -/
theorem executeAlu_withMem (kind : AluKind) (A B : Byte) :
    executeAlu kind A B { s with mem := m } = (executeAlu kind A B s).map fun t => { t with mem := m } := by
  unfold executeAlu
  cases regIndex A with
  | error e => rfl
  | ok i =>
    cases regIndex B with
    | error e => rfl
    | ok j =>
      have same_check : dividesByZero s.params.divMode kind (readReg { s with mem := m } j) =
        dividesByZero s.params.divMode kind (readReg s j) := rfl
      simp only [ok_bind, same_check]
      split <;> rfl

end

/-- A fault entry carries the memory of the state it enters from (R89). -/
theorem concluded_withMem {s t : State} {op : Byte} {x : Except Raise State} (h : concluded s op x = .next t)
    (m : Memory) :
    concluded { s with mem := m } op (x.map fun u => { u with mem := m }) = .next { t with mem := m } := by
  cases x <;> cases h <;> rfl

/-- The execute part of an instruction does the same with any other memory (R61). -/
theorem exec_withMem {i : Instr} {s t : State} (h : exec i s = .next t) (m : Memory) :
    exec i { s with mem := m } = .next { t with mem := m } := by
  cases i with
  | ldi r imm => rw [exec, execLdi, executeLdi_withMem]; exact concluded_withMem h m
  | prn r => rw [exec, execPrn, executePrn_withMem]; exact concluded_withMem h m
  | hlt => cases h; rfl
  | mul A B => rw [exec, execMul, executeAlu_withMem]; exact concluded_withMem h m
  | div A B => rw [exec, execDiv, executeAlu_withMem]; exact concluded_withMem h m
  | add A B => rw [exec, execAdd, executeAlu_withMem]; exact concluded_withMem h m
  | sub A B => rw [exec, execSub, executeAlu_withMem]; exact concluded_withMem h m

/-- A step does the same with any other memory that holds the same instruction at the program counter (R61). -/
theorem step_withMem {s t : State} {m : Memory} {i : Instr} (hr : s.engine = .running) (hs : s.InstrRead i)
    (hm : ({ s with mem := m } : State).InstrRead i) (h : step s = .next t) :
    step { s with mem := m } = .next { t with mem := m } := by
  obtain ⟨u, hu⟩ := exec_next i s
  have hum := exec_withMem hu m
  by_cases he : u.engine = .faulted
  · rw [step_of_exec_faulted hr hs hu he] at h
    cases h
    exact step_of_exec_faulted hr hm hum he
  · rw [step_of_exec_next hr hs hu he] at h
    cases h
    exact step_of_exec_next (s := { s with mem := m }) hr hm hum he

/-- The model fault of a step that reads the instruction `i`: one of the instruction's cells holds no value, or one of its
source registers does (R95). -/
theorem readsNoValue_of_instrRead {s : State} {i : Instr} (h : s.InstrRead i) : readsNoValue s = true ↔
    (∃ k : Fin (encode i).length, s.cell (s.pc.toNat + k) = none) ∨ sourcesHoldNoValue s i = true := by
  obtain ⟨bs, hfetch, hi⟩ := fetch_of_instrRead h
  have hop : memRead s s.pc.toNat = .ok i.opcode.byte := memRead_ok.2 (instrRead_pc h)
  simp only [readsNoValue, hop, decodeOpcode_byte, hfetch, hi, Bool.or_eq_true, cellsHoldNoValue_iff, ← or_assoc]
  refine or_congr_left ⟨?_, ?_⟩
  · rintro (⟨k, hk, -, hcell⟩ | ⟨k, hk, -, hcell⟩)
    · exact ⟨⟨k, by rw [encode_length, instrLength]; omega⟩, hcell⟩
    · exact ⟨⟨1 + k, by rw [encode_length, instrLength]; omega⟩, by rwa [← Nat.add_assoc]⟩
  · rintro ⟨⟨k, hk⟩, hcell⟩
    obtain ⟨hrange, -⟩ := h ⟨k, hk⟩
    rw [encode_length, instrLength] at hk
    cases k with
    | zero => exact .inl ⟨0, Nat.one_pos, hrange, hcell⟩
    | succ k =>
      have shift : s.pc.toNat + (k + 1) = s.pc.toNat + 1 + k := by omega
      exact .inr ⟨k, by omega, shift ▸ hrange, shift ▸ hcell⟩

/-- The hypotheses of R61's clause on the model fault can be met, with two memories that differ at address 9: an ADD whose
second register holds no value. -/
theorem witness_stepReadsNoByteButTheInstructions_modelFault :
    ∃ (s : State) (m : Memory) (i : Instr) (r : ModelFault), (s.engine = .running ∧ s.InstrRead i ∧
      ({ s with mem := m } : State).InstrRead i ∧ m ≠ s.mem ∧
      ∀ k : Fin (encode i).length, ({ s with mem := m } : State).cell (s.pc.toNat + k) = s.cell (s.pc.toNat + k)) ∧
      reportedStep s = .fault r :=
  ⟨{ State.resetWith Config.specDefault 0 with
      mem := [(0, 0xA0), (1, 0), (2, 1)], regs := #v[some 1, none, none, none, none, none, none, none], engine := .running },
    [(0, 0xA0), (1, 0), (2, 1), (9, 5)], .add 0 1, .uninitRead 0, by decide, rfl⟩

/-- Settles O14: the execute part does not read the memory, and the model fault depends on the instruction's own cells and
registers. -/
theorem stepReadsNoByteButTheInstructions : Obligations.StepReadsNoByteButTheInstructions := by
  refine fun s m i hr hs hm => ⟨fun t h => step_withMem hr hs hm h, fun same_cells r h => ?_⟩
  obtain ⟨-, hreads, rfl⟩ := reportedStep_fault.1 h
  refine reportedStep_fault.2 ⟨hr, (readsNoValue_of_instrRead hm).2 ?_, rfl⟩
  obtain ⟨k, hcell⟩ | hsources := (readsNoValue_of_instrRead hs).1 hreads
  · exact .inl ⟨k, (same_cells k).trans hcell⟩
  · exact .inr hsources

end Sys2Proof.Machine

/-! PROOF. The assembler (30_encoding.md section 8): numerals, words, registers and lines are read back as they
are written, and no line gives a register operand of 8 or above. -/

namespace Sys2Proof.Machine

/-! ### Decimal numerals -/

/-- A decimal digit has its value (R65). -/
theorem digitValue_of_isDigit {c : Char} (h : c.isDigit = true) : digitValue c = some (c.toNat - '0'.toNat) := by
  obtain ⟨hlo, hhi⟩ := Char.isDigit_iff_toNat.1 h
  exact if_pos ⟨hlo, hhi⟩

/-- The value of decimal digits after `n` is the library's. -/
theorem digitsValue_ten {ds : List Char} (h : ∀ c ∈ ds, c.isDigit = true) (n : Nat) :
    digitsValue 10 n ds = some (Nat.ofDigitChars 10 ds n) := by
  induction ds generalizing n with
  | nil => rfl
  | cons c cs ih =>
    obtain ⟨hc, hcs⟩ := List.forall_mem_cons.1 h
    have below : c.toNat - '0'.toNat < 10 := by
      have nine : '9'.toNat = '0'.toNat + 9 := rfl
      obtain ⟨-, hhi⟩ := Char.isDigit_iff_toNat.1 hc
      omega
    simp only [digitsValue, digitValue_of_isDigit hc, if_pos below, ih hcs, Nat.ofDigitChars_cons, Nat.mul_comm n]

theorem isDigit_of_mem_decimalDigits {v : Byte} {c : Char} (h : c ∈ decimalDigits v) : c.isDigit = true :=
  Nat.isDigit_of_mem_toDigits (by decide) le_rfl h

theorem decimalDigits_ne_nil (v : Byte) : decimalDigits v ≠ [] := Nat.toDigits_ne_nil

theorem numeral_of_ne_nil {base : Nat} {ds : List Char} (h : ds ≠ []) : numeral base ds = digitsValue base 0 ds := by
  cases ds with
  | nil => exact absurd rfl h
  | cons c cs => rfl

/-- The decimal digits of a byte are a numeral of its value. -/
theorem numeral_decimalDigits (v : Byte) : numeral 10 (decimalDigits v) = some v.toNat := by
  rw [numeral_of_ne_nil (decimalDigits_ne_nil v), digitsValue_ten fun _ => isDigit_of_mem_decimalDigits, decimalDigits,
    Nat.ofDigitChars_ten_toDigits]

theorem byteOf_toNat (v : Byte) : byteOf v.toNat = some v := by
  rw [byteOf, if_pos v.isLt, BitVec.ofNat_toNat, BitVec.setWidth_eq]

/-! ### Operands -/

/-- An immediate without the mark `0b` or `0x` is a decimal numeral (R65). -/
theorem parseImmediate_of_isDigit {ds : List Char} (h : ∀ c ∈ ds, c.isDigit = true) :
    parseImmediate ds = (numeral 10 ds).bind byteOf := by
  unfold parseImmediate
  split
  · exact absurd (h 'b' (by simp)) (by decide)
  · exact absurd (h 'x' (by simp)) (by decide)
  · rfl

/-- A decimal immediate is read as the byte it was written for (R65). -/
theorem parseImmediate_decimalDigits (v : Byte) : parseImmediate (decimalDigits v) = some v := by
  rw [parseImmediate_of_isDigit fun _ => isDigit_of_mem_decimalDigits, numeral_decimalDigits, Option.bind_some,
    byteOf_toNat]

/-- A register is read as the index it was written for, if the index is legal (R65). -/
theorem parseRegister_registerText {b : Byte} (h : isRegByte b = true) : parseRegister (registerText b) = some b := by
  simp only [registerText, parseRegister, numeral_decimalDigits, Option.bind_some, byteOf_toNat, if_pos h]

/-- Whatever is read as a register has a legal index (R65). -/
theorem isRegByte_of_parseRegister {x : List Char} {r : Byte} (h : parseRegister x = some r) : isRegByte r = true := by
  unfold parseRegister at h
  split at h
  · obtain ⟨b, -, hb⟩ := Option.bind_eq_some_iff.1 h
    split at hb
    · next legal => cases hb; exact legal
    · cases hb
  · cases h

theorem parseMnemonic_mnemonic (o : Opcode) : parseMnemonic (Opcode.mnemonic o) = some o := by cases o <;> rfl

/-! ### Words -/

/-- A word of a line: at least one character, none of them a blank or a comma. -/
structure IsWord (w : List Char) : Prop where
  nonempty : w ≠ []
  plain : ∀ c ∈ w, c ≠ ' ' ∧ c ≠ ','

/-- The characters of a word are read into the word begun. -/
theorem tokensFrom_append {w : List Char} (h : ∀ c ∈ w, c ≠ ' ' ∧ c ≠ ',') (begun rest : List Char) :
    tokensFrom begun (w ++ rest) = tokensFrom (begun ++ w) rest := by
  induction w generalizing begun with
  | nil => rw [List.nil_append, List.append_nil]
  | cons c cs ih =>
    obtain ⟨⟨not_blank, not_comma⟩, hcs⟩ := List.forall_mem_cons.1 h
    rw [List.cons_append, tokensFrom, if_neg not_blank, if_neg not_comma, ih hcs, List.append_assoc,
      List.singleton_append]

section
variable {w : List Char} (h : IsWord w)
include h

theorem IsWord.isEmpty_eq_false : w.isEmpty = false := by
  simp [h.nonempty]

theorem IsWord.tokensFrom_end : tokensFrom [] w = [w] := by
  have read := tokensFrom_append h.plain [] []
  rw [List.append_nil, List.nil_append] at read
  simp [read, tokensFrom, h.isEmpty_eq_false]

theorem IsWord.tokensFrom_blank (rest : List Char) : tokensFrom [] (w ++ ' ' :: rest) = w :: tokensFrom [] rest := by
  rw [tokensFrom_append h.plain, List.nil_append, tokensFrom]
  simp [h.isEmpty_eq_false]

theorem IsWord.tokensFrom_comma (rest : List Char) :
    tokensFrom [] (w ++ ',' :: rest) = w :: [','] :: tokensFrom [] rest := by
  rw [tokensFrom_append h.plain, List.nil_append, tokensFrom]
  simp [h.isEmpty_eq_false]

end

theorem isWord_mnemonic (o : Opcode) : IsWord (Opcode.mnemonic o) := by
  cases o <;> exact ⟨by simp [Opcode.mnemonic], by simp [Opcode.mnemonic]⟩

/-- A digit is neither a blank nor a comma. -/
theorem ne_blank_and_ne_comma_of_isDigit {c : Char} (h : c.isDigit = true) : c ≠ ' ' ∧ c ≠ ',' := by
  constructor <;> (rintro rfl; revert h; decide)

theorem isWord_decimalDigits (v : Byte) : IsWord (decimalDigits v) :=
  ⟨decimalDigits_ne_nil v, fun _ hc => ne_blank_and_ne_comma_of_isDigit (isDigit_of_mem_decimalDigits hc)⟩

theorem isWord_registerText (b : Byte) : IsWord (registerText b) :=
  ⟨List.cons_ne_nil _ _, List.forall_mem_cons.2 ⟨by decide, (isWord_decimalDigits b).plain⟩⟩

/-! ### Lines -/

/-- A blank at the start of a word's line stands for nothing. -/
theorem tokensFrom_nil_blank (rest : List Char) : tokensFrom [] (' ' :: rest) = tokensFrom [] rest := rfl

/-- A line of two operands is read as its mnemonic and its operands (R65). -/
theorem assemble_twoOperandText (o : Opcode) {x y : List Char} (hx : IsWord x) (hy : IsWord y) :
    assemble (twoOperandText o x y) = assembleTwo o x y := by
  have line : twoOperandText o x y = Opcode.mnemonic o ++ ' ' :: (x ++ ',' :: (' ' :: y)) := by simp [twoOperandText]
  rw [assemble, line, (isWord_mnemonic o).tokensFrom_blank, hx.tokensFrom_comma, tokensFrom_nil_blank,
    hy.tokensFrom_end]
  simp only [if_true, parseMnemonic_mnemonic, Option.bind_some]

/-- A well-formed instruction is assembled from its text (R65). -/
theorem assemble_assemblyText {i : Instr} (h : i.wf = true) : assemble (assemblyText i) = some i := by
  cases i with
  | ldi r imm =>
    rw [assemblyText, assemble_twoOperandText .ldi (isWord_registerText r) (isWord_decimalDigits imm)]
    simp only [assembleTwo, parseRegister_registerText h, parseImmediate_decimalDigits, Option.bind_some, Option.map_some]
  | prn r =>
    rw [assemblyText, assemble, (isWord_mnemonic .prn).tokensFrom_blank, (isWord_registerText r).tokensFrom_end]
    simp only [parseMnemonic_mnemonic, if_true, parseRegister_registerText h, Option.map_some]
  | hlt => rfl
  | mul A B | div A B | add A B | sub A B =>
    obtain ⟨hA, hB⟩ := Bool.and_eq_true_iff.1 h
    rw [assemblyText, assemble_twoOperandText _ (isWord_registerText A) (isWord_registerText B)]
    simp only [assembleTwo, parseRegister_registerText hA, parseRegister_registerText hB, Option.bind_some,
      Option.map_some]

/-- Two words read as registers are legal indices, and so is what is made of them (R65). -/
theorem wf_of_parseRegisters {x y : List Char} {mk : Byte → Byte → Instr} {i : Instr}
    (hwf : ∀ A B, isRegByte A = true → isRegByte B = true → (mk A B).wf = true)
    (h : ((parseRegister x).bind fun A => (parseRegister y).map fun B => mk A B) = some i) : i.wf = true := by
  obtain ⟨A, hA, h⟩ := Option.bind_eq_some_iff.1 h
  obtain ⟨B, hB, rfl⟩ := Option.map_eq_some_iff.1 h
  exact hwf A B (isRegByte_of_parseRegister hA) (isRegByte_of_parseRegister hB)

/-- Two operand words give a well-formed instruction, if any (R65). -/
theorem wf_of_assembleTwo {o : Opcode} {x y : List Char} {i : Instr} (h : assembleTwo o x y = some i) : i.wf = true := by
  have legal (A B : Byte) (hA : isRegByte A = true) (hB : isRegByte B = true) : (isRegByte A && isRegByte B) = true :=
    Bool.and_eq_true_iff.2 ⟨hA, hB⟩
  cases o with
  | ldi =>
    obtain ⟨r, hr, h⟩ := Option.bind_eq_some_iff.1 h
    obtain ⟨v, -, rfl⟩ := Option.map_eq_some_iff.1 h
    exact isRegByte_of_parseRegister hr
  | prn | hlt => cases h
  | mul => exact wf_of_parseRegisters (mk := .mul) legal h
  | div => exact wf_of_parseRegisters (mk := .div) legal h
  | add => exact wf_of_parseRegisters (mk := .add) legal h
  | sub => exact wf_of_parseRegisters (mk := .sub) legal h

/-- Whatever a line is assembled to is well-formed (R65). -/
theorem wf_of_assemble {line : List Char} {i : Instr} (h : assemble line = some i) : i.wf = true := by
  unfold assemble at h
  split at h
  · split at h
    · cases h; rfl
    · cases h
  · split at h
    · obtain ⟨r, hr, rfl⟩ := Option.map_eq_some_iff.1 h
      exact isRegByte_of_parseRegister hr
    · cases h
  · obtain ⟨o, -, h⟩ := Option.bind_eq_some_iff.1 h
    exact wf_of_assembleTwo h
  · split at h
    · obtain ⟨o, -, h⟩ := Option.bind_eq_some_iff.1 h
      exact wf_of_assembleTwo h
    · cases h
  · cases h

/-- Settles O5: words and operands are read back as written, and every register read is legal. -/
theorem assemblerReadsWhatItWrites : Obligations.AssemblerReadsWhatItWrites :=
  ⟨fun _ => assemble_assemblyText, fun _ _ => wf_of_assemble⟩

end Sys2Proof.Machine

/-! PROOF. LDI and PRN (40_register_and_output.md): the operand fetch before them, their register byte, and the line of
digits the host renders for an emitted value. -/

namespace Sys2Proof.Machine

/-! ### The operand fetch -/

/-- R62, R87 and R95 for an opcode: an operand byte past the end of memory is the cycle's third check, and an operand cell
in range that holds no value is the model fault. -/
theorem operandFetchRule_byte (o : Opcode) : OperandFetchRule o.byte := by
  refine ⟨fun s hr hpc hop hend _ => ?_, fun s k hr hop hk hcount hrange hcell => ?_⟩
  · have opcode_byte : s.byteAt s.pc.toNat = o.byte := State.byteAt_of_some hop
    rw [step_running hr]
    obtain ⟨hge, -⟩ | ⟨op, -, hop', hdec, -⟩ | ⟨o', -, ho', -, e⟩ | ⟨i, hi, -⟩ := cycle_cases s
    · omega
    · rw [← hop', opcode_byte, decodeOpcode_byte] at hdec
      cases hdec
    · rw [e, ← ho', opcode_byte]
    · have hio : i.opcode.byte = o.byte := (instrRead_pc hi).2.symm.trans opcode_byte
      have inRange := instrRead_operand hi le_rfl
      rw [hio] at inRange
      omega
  · have noValue : readsNoValue s = true :=
      readsNoValue_iff.2 (.inr (.inl ⟨o, k, State.byteAt_of_some hop, hk, hcount, hrange, hcell⟩))
    exact reportedStep_fault.2 ⟨hr, noValue, rfl⟩

/-! ### The model fault of a written instruction -/

/-- With its bytes written, an instruction is reported as the model fault exactly for its source registers (R93,
R95). -/
theorem reportedStep_fault_of_instrAt {s : State} {i : Instr} {f : ModelFault} (h : s.InstrAt i) :
    reportedStep s = .fault f ↔ s.engine = .running ∧ sourcesHoldNoValue s i = true ∧ f = .uninitRead s.pc := by
  have written : ¬∃ k : Fin (encode i).length, s.cell (s.pc.toNat + k) = none := by
    rintro ⟨k, hcell⟩
    rw [(h k).2] at hcell
    cases hcell
  rw [reportedStep_fault, readsNoValue_of_instrRead (instrRead_of_instrAt h), or_iff_right written]

/-! ### A register byte of 8 or above -/

/-- LDI with a register byte of 8 or above faults (R56, R69). -/
theorem exec_ldi_of_ge {r : Byte} (hr : 8 ≤ r.toNat) (imm : Byte) (s : State) :
    exec (.ldi r imm) s = .next (faultEntry s (some 0x82) .outOfRangeAccess .register (r.setWidth 9)) := by
  rw [exec, execLdi, executeLdi, regIndex_of_ge hr]
  rfl

/-- PRN with a register byte of 8 or above faults (R56, R70). -/
theorem exec_prn_of_ge {r : Byte} (hr : 8 ≤ r.toNat) (s : State) :
    exec (.prn r) s = .next (faultEntry s (some 0x47) .outOfRangeAccess .register (r.setWidth 9)) := by
  rw [exec, execPrn, executePrn, regIndex_of_ge hr]
  rfl

/-- LDI has no source register to hold no value (R18, R69). -/
theorem not_sourcesHoldNoValue_ldi (s : State) (r imm : Byte) : ¬(sourcesHoldNoValue s (.ldi r imm) = true) := by
  rw [sourcesHoldNoValue_iff]
  rintro ⟨-, b, hb, -⟩
  cases hb

/-- PRN reads no value exactly when its byte is an index and that register holds none (R70, R93). -/
theorem sourcesHoldNoValue_prn {s : State} {r : Byte} (hr : r.toNat < 8) :
    sourcesHoldNoValue s (.prn r) = true ↔ s.regs[r.toNat] = none := by
  simp [sourcesHoldNoValue_iff, registerBytes, sourceBytes, hr]

/-! ### The line of an emitted value -/

/-- The decimal digits of a number above 0 begin with a digit above 0. -/
theorem head?_toDigits_ten_ne {n : Nat} (hn : n ≠ 0) : (Nat.toDigits 10 n).head? ≠ some '0' := by
  induction n using Nat.strongRecOn with
  | ind n ih =>
    obtain hlt | hge := Nat.lt_or_ge n 10
    · rw [Nat.toDigits_of_lt_base hlt]
      exact fun h => hn (Nat.digitChar_eq_zero.1 (Option.some.inj h))
    · rw [Nat.toDigits_of_base_le (by decide) hge, List.head?_append_of_ne_nil _ Nat.toDigits_ne_nil]
      exact ih (n / 10) (by omega) (by omega)

/-! ### The rules of LDI and PRN -/

/-- Settles O20: the execute part by its register byte, the step of log entry 13's rule, and no source register to hold no
value. -/
theorem loadImmediateWritesItsRegister : Obligations.LoadImmediateWritesItsRegister := by
  obtain ⟨step_ldi, -⟩ := instructionsGoOnWithUnwrittenBytes
  refine ⟨fun _ _ => rfl, fun r imm hr s => ⟨exec_ldi_of_lt hr imm s, fun hrun hi => ?_⟩, operandFetchRule_byte .ldi,
    fun r imm s hr => exec_ldi_of_ge hr imm s, fun r imm s f hi hfault => ?_⟩
  · exact step_ldi r imm hr s hrun (instrRead_of_instrAt hi)
  · obtain ⟨-, hsource, -⟩ := (reportedStep_fault_of_instrAt hi).1 hfault
    exact not_sourcesHoldNoValue_ldi s r imm hsource

/-- Settles O21: the execute part by its register byte, the step of log entry 13's rule, the one source register, and the
digits of a byte. -/
theorem printEmitsItsRegister : Obligations.PrintEmitsItsRegister := by
  obtain ⟨-, prn_rule, -⟩ := instructionsGoOnWithUnwrittenBytes
  refine ⟨fun _ => rfl, fun r hr s v hv => ?_, operandFetchRule_byte .prn, fun r s hr => exec_prn_of_ge hr s,
    fun r hr s hrun hi hnone => ?_, fun _ => rfl, fun v => ⟨numeral_decimalDigits v, fun hv => ?_, ?_⟩⟩
  · obtain ⟨hexec, hstep⟩ := prn_rule r hr s v (.inl hv)
    exact ⟨hexec, fun hrun hi => hstep hrun (instrRead_of_instrAt hi)⟩
  · exact (reportedStep_fault_of_instrAt hi).2 ⟨hrun, (sourcesHoldNoValue_prn hr).2 hnone, rfl⟩
  · exact head?_toDigits_ten_ne fun h0 => hv (BitVec.eq_of_toNat_eq h0)
  · rintro rfl
    rfl

end Sys2Proof.Machine

/-! PROOF. The end of a program (41_control.md): a fetch from a cell nothing has written, and HLT with the steps after
it. -/

namespace Sys2Proof.Machine

/-! ### Running off the program -/

/-- A memory that does not list an address reads there as RESET_FILL says (R31, R33). -/
theorem memory_read_of_unlisted {fill : ResetFill} {m : Memory} {a : Nat} (h : ∀ c ∈ m, c.1 ≠ a) :
    Memory.read fill m a = Memory.unlisted fill := by
  induction m with
  | nil => rfl
  | cons c m ih =>
    obtain ⟨hhead, htail⟩ := List.forall_mem_cons.1 h
    rw [Memory.read_cons_of_ne m hhead, ih htail]

/-- Settles O19: the unlisted cell holds no value, or the byte 0x00, which is no opcode. -/
theorem runningOffTheProgramStopsTheRun : Obligations.RunningOffTheProgramStopsTheRun := by
  intro s hrun hpc hfree
  have hcell : s.cell s.pc.toNat = Memory.unlisted s.params.resetFill := memory_read_of_unlisted hfree
  refine ⟨fun hfill => ?_, fun hfill => ?_⟩
  · rw [hfill] at hcell
    exact reportedStep_fault.2 ⟨hrun, readsNoValue_iff.2 (.inl ⟨hpc, hcell⟩), rfl⟩
  · rw [hfill] at hcell
    obtain ⟨-, -, zero_illegal, unknown_instruction⟩ := illegalOpcodeRaisesUnknownInstruction
    exact unknown_instruction s 0 hrun hpc hcell zero_illegal

/-! ### HLT -/

/-- A run whose first step answers a next state goes on from that state. -/
theorem run_succ_of_step {M : Host.Core} {s t : M.State} (h : M.step s = .next t) (k : Nat) :
    M.run (k + 1) s = M.run k t := by
  rw [Host.Core.run, h]

/-- Outside Running any number of steps change nothing (log entry 3). -/
theorem run_not_running {s : State} (h : s.engine ≠ .running) (k : Nat) : Host.Core.run core k s = .next s := by
  induction k with
  | zero => rfl
  | succ k ih => exact (run_succ_of_step (M := core) (step_not_running h) k).trans ih

/-- Settles O22: the step that O54's clause gives whatever the byte reads as, the exact advance, and the steps in Halted. -/
theorem haltStopsTheEngineAndAdvances : Obligations.HaltStopsTheEngineAndAdvances := by
  obtain ⟨-, -, step_hlt_rule, -⟩ := instructionsGoOnWithUnwrittenBytes
  refine ⟨rfl, fun s => ⟨rfl, fun hrun hi => ?_⟩⟩
  have read : s.InstrRead .hlt := instrRead_of_instrAt hi
  have halts := step_hlt_rule s hrun read
  have stopped : ({ s with engine := .halted, pc := s.pc + 1 } : State).engine ≠ .running := nofun
  exact ⟨halts, advance_toNat read, fun k => (run_succ_of_step (M := core) halts k).trans (run_not_running stopped k)⟩

end Sys2Proof.Machine

/-! PROOF. The ALU instructions (42_alu.md): the rule the four share, the arithmetic modulo 256, and one register as both
operands. -/

namespace Sys2Proof.Machine

/-! ### The four instructions by their kind -/

/-- The instruction whose execute part is ExecuteALU of a kind (R76 to R79). -/
def AluKind.instr : AluKind → Byte → Byte → Instr
  | .mul => .mul
  | .div => .div
  | .add => .add
  | .sub => .sub

/-- The opcode of the instruction of a kind. -/
def AluKind.opcode : AluKind → Opcode
  | .mul => .mul
  | .div => .div
  | .add => .add
  | .sub => .sub

theorem encode_aluInstr (kind : AluKind) (A B : Byte) : encode (kind.instr A B) = [kind.opcode.byte, A, B] := by
  cases kind <;> rfl

theorem registerBytes_aluInstr (kind : AluKind) (A B : Byte) : registerBytes (kind.instr A B) = [A, B] := by
  cases kind <;> rfl

theorem sourceBytes_aluInstr (kind : AluKind) (A B : Byte) : sourceBytes (kind.instr A B) = [A, B] := by
  cases kind <;> rfl

theorem exec_aluInstr (kind : AluKind) (A B : Byte) (s : State) :
    exec (kind.instr A B) s = concluded s kind.opcode.byte (executeAlu kind A B s) := by
  cases kind <;> rfl

/-- A value other than 0 is no zero divisor. -/
theorem dividesByZero_of_ne_zero {mode : DivMode} {kind : AluKind} {b : Byte} (h : b ≠ 0) :
    dividesByZero mode kind b = false := by
  refine eq_false_of_ne_true fun hz => ?_
  obtain ⟨-, -, h0⟩ := dividesByZero_eq_true.1 hz
  exact h h0

/-- An ALU instruction that does not divide by zero writes the result of what its registers read as (R75). -/
theorem exec_aluInstr_of_regReads {kind : AluKind} {A B : Byte} {hA : A.toNat < 8} {hB : B.toNat < 8} {s : State}
    {x y : Byte} (hx : s.RegReads ⟨A.toNat, hA⟩ x) (hy : s.RegReads ⟨B.toNat, hB⟩ y)
    (hz : dividesByZero s.params.divMode kind y = false) :
    exec (kind.instr A B) s = .next (s.writeReg ⟨A.toNat, hA⟩ (alu s.params.divMode kind x y)) := by
  rw [exec_aluInstr, executeAlu_of_regReads hx hy hz]
  rfl

/-- ADD writes the sum of what its registers read as (R78). -/
theorem exec_add_of_regReads {A B : Byte} {hA : A.toNat < 8} {hB : B.toNat < 8} {s : State} {x y : Byte}
    (hx : s.RegReads ⟨A.toNat, hA⟩ x) (hy : s.RegReads ⟨B.toNat, hB⟩ y) :
    exec (.add A B) s = .next (s.writeReg ⟨A.toNat, hA⟩ (alu s.params.divMode .add x y)) :=
  exec_aluInstr_of_regReads (kind := .add) hx hy (dividesByZero_of_ne_div nofun)

/-- SUB writes the difference of what its registers read as (R79). -/
theorem exec_sub_of_regReads {A B : Byte} {hA : A.toNat < 8} {hB : B.toNat < 8} {s : State} {x y : Byte}
    (hx : s.RegReads ⟨A.toNat, hA⟩ x) (hy : s.RegReads ⟨B.toNat, hB⟩ y) :
    exec (.sub A B) s = .next (s.writeReg ⟨A.toNat, hA⟩ (alu s.params.divMode .sub x y)) :=
  exec_aluInstr_of_regReads (kind := .sub) hx hy (dividesByZero_of_ne_div nofun)

/-- The first register byte of an ALU instruction is checked first (R56, R75). -/
theorem exec_aluInstr_of_left_ge {A : Byte} (hA : 8 ≤ A.toNat) (kind : AluKind) (B : Byte) (s : State) :
    exec (kind.instr A B) s =
      .next (faultEntry s (some kind.opcode.byte) .outOfRangeAccess .register (A.setWidth 9)) := by
  rw [exec_aluInstr, executeAlu, regIndex_of_ge hA]
  rfl

/-- The second register byte of an ALU instruction is checked after the first (R56, R75). -/
theorem exec_aluInstr_of_right_ge {A B : Byte} (hA : A.toNat < 8) (hB : 8 ≤ B.toNat) (kind : AluKind) (s : State) :
    exec (kind.instr A B) s =
      .next (faultEntry s (some kind.opcode.byte) .outOfRangeAccess .register (B.setWidth 9)) := by
  rw [exec_aluInstr, executeAlu, regIndex_of_lt hA, regIndex_of_ge hB]
  rfl

/-- An ALU instruction on two register indices reads no value exactly when one of the two registers holds none (R93). -/
theorem sourcesHoldNoValue_aluInstr {A B : Byte} (hA : A.toNat < 8) (hB : B.toNat < 8) (kind : AluKind) (s : State) :
    sourcesHoldNoValue s (kind.instr A B) = true ↔ s.regs[A.toNat] = none ∨ s.regs[B.toNat] = none := by
  simp [sourcesHoldNoValue_iff, registerBytes_aluInstr, sourceBytes_aluInstr, hA, hB]

/-! ### The rules of MUL, DIV, ADD and SUB -/

/-- The rule of an ALU instruction on held values and written bytes is the one of log entry 13 on whatever is read, with
the checks before the write. -/
theorem aluRule_of_aluGoesOn {kind : AluKind} {applies : Params → Byte → Prop} {result : Params → Byte → Byte → Byte}
    (goesOn : AluGoesOn kind.instr applies result) : AluRule kind.instr kind.opcode.byte applies result := by
  refine ⟨encode_aluInstr kind, fun A B hA hB s x y hx hy ha => ?_, operandFetchRule_byte kind.opcode,
    fun A B s hA => exec_aluInstr_of_left_ge hA kind B s, fun A B s hA hB => exec_aluInstr_of_right_ge hA hB kind s,
    fun A B hA hB s hrun hi hnone => ?_⟩
  · obtain ⟨hexec, hstep⟩ := goesOn A B hA hB s x y (.inl hx) (.inl hy) ha
    exact ⟨hexec, fun hrun hi => hstep hrun (instrRead_of_instrAt hi)⟩
  · exact (reportedStep_fault_of_instrAt hi).2 ⟨hrun, (sourcesHoldNoValue_aluInstr hA hB kind s).2 hnone, rfl⟩

/-- Settles O24: MUL's clause of log entry 13's rule, with the checks all ALU instructions share. -/
theorem multiplyRule : Obligations.MultiplyRule := by
  obtain ⟨-, -, -, mul_goesOn, -⟩ := instructionsGoOnWithUnwrittenBytes
  exact aluRule_of_aluGoesOn (kind := .mul) mul_goesOn

/-- Settles O25: DIV's clauses of log entry 13's rule, with the checks all ALU instructions share. -/
theorem divideRule : Obligations.DivideRule := by
  obtain ⟨-, -, -, -, div_goesOn, -, -, div_by_zero⟩ := instructionsGoOnWithUnwrittenBytes
  exact ⟨aluRule_of_aluGoesOn (kind := .div) div_goesOn,
    fun A B hA hB s hmode _ hy => div_by_zero A B hA hB s hmode (.inl hy)⟩

/-- Settles O26: ADD's clause of log entry 13's rule, with the checks all ALU instructions share. -/
theorem addRule : Obligations.AddRule := by
  obtain ⟨-, -, -, -, -, add_goesOn, -⟩ := instructionsGoOnWithUnwrittenBytes
  exact aluRule_of_aluGoesOn (kind := .add) add_goesOn

/-- Settles O27: SUB's clause of log entry 13's rule, with the checks all ALU instructions share. -/
theorem subtractRule : Obligations.SubtractRule := by
  obtain ⟨-, -, -, -, -, -, sub_goesOn, -⟩ := instructionsGoOnWithUnwrittenBytes
  exact aluRule_of_aluGoesOn (kind := .sub) sub_goesOn

/-! ### The arithmetic of the ALU -/

theorem alu_add_toNat (mode : DivMode) (x y : Byte) : (alu mode .add x y).toNat = (x.toNat + y.toNat) % 256 :=
  BitVec.toNat_ofNat ..

theorem alu_mul_toNat (mode : DivMode) (x y : Byte) : (alu mode .mul x y).toNat = (x.toNat * y.toNat) % 256 :=
  BitVec.toNat_ofNat ..

theorem alu_divide_toNat (x y : Byte) : (alu .divide .div x y).toNat = (x.toNat / y.toNat) % 256 :=
  BitVec.toNat_ofNat ..

/-- The remainder of a difference is the non-negative one (R80). -/
theorem alu_sub_toNat (mode : DivMode) (x y : Byte) :
    ((alu mode .sub x y).toNat : Int) = ((x.toNat : Int) - y.toNat) % 256 := by
  have nonneg : 0 ≤ ((x.toNat : Int) - y.toNat) % 256 := Int.emod_nonneg _ (by decide)
  exact (congrArg Int.ofNat (BitVec.toNat_ofInt ..)).trans (Int.toNat_of_nonneg nonneg)

/-- A product is the low byte of the 16-bit product (R81): the product of two bytes fits in 16 bits. -/
theorem alu_mul_eq_extractLsb' (mode : DivMode) (x y : Byte) :
    alu mode .mul x y = (x.setWidth 16 * y.setWidth 16).extractLsb' 0 8 := by
  apply BitVec.eq_of_toNat_eq
  rw [alu_mul_toNat]
  simp [Nat.mod_mod_of_dvd]

/-- Settles O28: each result as a natural number, read as an integer. -/
theorem aluComputesModulo256 : Obligations.AluComputesModulo256 := by
  refine fun mode x y => ⟨?_, alu_sub_toNat mode x y, ?_, alu_mul_eq_extractLsb' mode x y, rfl, fun _ => ?_⟩
  · rw [alu_add_toNat]; push_cast; rfl
  · rw [alu_mul_toNat]; push_cast; rfl
  · rw [alu_divide_toNat]; push_cast; rfl

/-- The sum, the difference and the product are the integers' precisely when those are in 0 to 255 (R84). -/
theorem alu_exact_iff (mode : DivMode) (x y : Byte) :
    ((alu mode .add x y).toNat = x.toNat + y.toNat ↔ x.toNat + y.toNat ≤ 255) ∧
    (((alu mode .sub x y).toNat : Int) = (x.toNat : Int) - y.toNat ↔ y.toNat ≤ x.toNat) ∧
    ((alu mode .mul x y).toNat = x.toNat * y.toNat ↔ x.toNat * y.toNat ≤ 255) := by
  rw [alu_add_toNat, alu_sub_toNat, alu_mul_toNat]
  have mod_eq_self_iff (n : Nat) : n % 256 = n ↔ n ≤ 255 := by omega
  exact ⟨mod_eq_self_iff _, by omega, mod_eq_self_iff _⟩

/-- The identity of R84: adding and then subtracting one value gives the other back. -/
theorem alu_sub_alu_add (mode : DivMode) (x y : Byte) : alu mode .sub (alu mode .add x y) y = x := by
  have hadd := alu_add_toNat mode x y
  have hsub := alu_sub_toNat mode (alu mode .add x y) y
  apply BitVec.eq_of_toNat_eq
  omega

theorem alu_sub_self (mode : DivMode) (x : Byte) : alu mode .sub x x = 0 := by
  rw [alu, Int.sub_self]
  rfl

theorem alu_add_self (mode : DivMode) (x : Byte) : alu mode .add x x = BitVec.ofNat 8 (2 * x.toNat) := by
  rw [two_mul]
  rfl

theorem alu_divide_self {x : Byte} (hx : x ≠ 0) : alu .divide .div x x = 1 := by
  have pos : 0 < x.toNat := Nat.pos_of_ne_zero fun h0 => hx (BitVec.eq_of_toNat_eq h0)
  apply BitVec.eq_of_toNat_eq
  rw [alu_divide_toNat, Nat.div_self pos]
  rfl

/-! ### One register as both operands -/

/-- Settles O29: the one register gives both operands, so each result is the ALU's on a value and itself. -/
theorem sameRegisterAsBothOperands : Obligations.SameRegisterAsBothOperands := by
  intro A hA s a ha
  have reads : s.RegReads ⟨A.toNat, hA⟩ a := .inl ha
  have exec_self (kind : AluKind) (hz : dividesByZero s.params.divMode kind a = false) :
      exec (kind.instr A A) s = .next (s.writeReg ⟨A.toNat, hA⟩ (alu s.params.divMode kind a a)) :=
    exec_aluInstr_of_regReads reads reads hz
  refine ⟨?_, ?_, exec_self .mul (dividesByZero_of_ne_div nofun), fun hmode => ?_, fun hmode hne => ?_,
    fun hmode hzero => exec_div_of_regReads_zero hA hmode (hzero ▸ reads)⟩
  · rw [← alu_add_self s.params.divMode]
    exact exec_add_of_regReads reads reads
  · rw [← alu_sub_self s.params.divMode a]
    exact exec_sub_of_regReads reads reads
  · rw [hmode] at exec_self
    exact exec_self .div rfl
  · rw [hmode] at exec_self
    rw [← alu_divide_self hne]
    exact exec_self .div (dividesByZero_of_ne_zero hne)

/-! ### ADD, then SUB -/

theorem writeReg_writeReg_self (s : State) (i : Fin 8) (v w : Byte) : (s.writeReg i v).writeReg i w = s.writeReg i w := by
  simp [State.writeReg]

/-- Writing the value a register holds changes nothing. -/
theorem writeReg_of_holds {s : State} {i : Fin 8} {v : Byte} (h : s.regs[i] = some v) : s.writeReg i v = s := by
  simp [State.writeReg, ← h]

theorem regReads_writeReg_self (s : State) (i : Fin 8) (v : Byte) : (s.writeReg i v).RegReads i v := by
  simp [State.RegReads]

theorem regReads_writeReg_of_ne {s : State} {i j : Fin 8} {w : Byte} (hij : i ≠ j) (v : Byte) (h : s.RegReads j w) :
    (s.writeReg i v).RegReads j w := by
  simpa [State.RegReads, Fin.val_ne_of_ne hij] using h

/-- Settles O30: SUB overwrites the sum with the old value where the second register is another, and with 0 where it is
the same. -/
theorem addThenSubtractRoundTrip : Obligations.AddThenSubtractRoundTrip := by
  refine ⟨alu_exact_iff, fun A B hA hB s hne heldA heldB => ?_, fun A hA s heldA => ?_⟩
  · obtain ⟨x, hx⟩ := Option.ne_none_iff_exists'.1 heldA
    obtain ⟨y, hy⟩ := Option.ne_none_iff_exists'.1 heldB
    have readsA : s.RegReads ⟨A.toNat, hA⟩ x := .inl hx
    have readsB : s.RegReads ⟨B.toNat, hB⟩ y := .inl hy
    have hij : (⟨A.toNat, hA⟩ : Fin 8) ≠ ⟨B.toNat, hB⟩ := fun h => hne (BitVec.eq_of_toNat_eq (Fin.mk.inj h))
    refine ⟨_, exec_add_of_regReads readsA readsB, ?_⟩
    rw [exec_sub_of_regReads (regReads_writeReg_self ..) (regReads_writeReg_of_ne hij _ readsB), State.writeReg_params,
      alu_sub_alu_add, writeReg_writeReg_self, writeReg_of_holds hx]
  · obtain ⟨x, hx⟩ := Option.ne_none_iff_exists'.1 heldA
    have readsA : s.RegReads ⟨A.toNat, hA⟩ x := .inl hx
    refine ⟨_, exec_add_of_regReads readsA readsA, ?_⟩
    rw [exec_sub_of_regReads (regReads_writeReg_self ..) (regReads_writeReg_self ..), alu_sub_self, writeReg_writeReg_self]
    rfl

end Sys2Proof.Machine

/-! PROOF. Nothing is refused, and the trace (60_exceptions.md sections 1 and 9; 30_encoding.md R62). -/

namespace Sys2Proof.Machine

/-- Settles O35: every execute part and every step has a next state, so none is refused. -/
theorem noInstructionIsRefused : Obligations.NoInstructionIsRefused := by
  refine ⟨fun i s r h => ?_, fun s r h => ?_⟩
  · obtain ⟨t, e⟩ := exec_next i s
    cases e.symm.trans h
  · obtain ⟨t, e⟩ := step_next s
    cases e.symm.trans h

theorem traceCell_of_ge {s : State} {a : Nat} (h : 256 ≤ a) : traceCell s a = none := if_pos h

theorem traceCell_of_lt {s : State} {a : Nat} (h : a < 256) : traceCell s a = s.cell a := if_neg (Nat.not_le.2 h)

/-- Settles O49: each cell of the trace is read through the trace read port, and the trace has no effect. -/
theorem traceReportsAndChangesNothing : Obligations.TraceReportsAndChangesNothing := by
  refine fun s => ⟨rfl, rfl, rfl, fun k m hk => ?_⟩
  have through_port : m = traceCell s (s.pc.toNat + k) := by
    obtain ⟨rfl, e⟩ | ⟨rfl, e⟩ | ⟨rfl, e⟩ := hk <;> exact e
  rw [through_port]
  exact ⟨traceCell_of_ge, traceCell_of_lt⟩

end Sys2Proof.Machine

/-! PROOF. The model fault and the output (60_exceptions.md sections 5 and 9): what a step reads that holds no value, and
that PRN alone emits. -/

namespace Sys2Proof.Machine

/-! ### Written bytes -/

/-- A cell that does not hold no value holds the byte it reads as (R31). -/
theorem cell_eq_byteAt {s : State} {a : Nat} (h : s.cell a ≠ none) : s.cell a = some (s.byteAt a) := by
  obtain ⟨v, hv⟩ := Option.ne_none_iff_exists'.1 h
  rw [State.byteAt_of_some hv, hv]

/-- The instruction a step reads is written at the program counter when each of its cells holds a value. -/
theorem instrAt_of_cells_ne_none {s : State} {i : Instr} (h : s.InstrRead i)
    (held : ∀ k : Fin (encode i).length, s.cell (s.pc.toNat + k) ≠ none) : s.InstrAt i := fun k => by
  obtain ⟨hrange, hbyte⟩ := h k
  exact ⟨hrange, by rw [cell_eq_byteAt (held k), hbyte]⟩

/-- A step that is not the model fault reads a written instruction, and a value from each of its source registers
(R95). -/
theorem instrAt_of_readsNoValue_eq_false {s : State} {i : Instr} (hi : s.InstrRead i) (h : readsNoValue s = false) :
    s.InstrAt i ∧ ¬sourcesHoldNoValue s i = true := by
  have hreads : ¬readsNoValue s = true := by rw [h]; nofun
  obtain ⟨hcells, hsources⟩ := not_or.1 (mt (readsNoValue_of_instrRead hi).2 hreads)
  exact ⟨instrAt_of_cells_ne_none hi fun k hk => hcells ⟨k, hk⟩, hsources⟩

/-! ### The model fault -/

/-- The opcode byte at the program counter is defined, and a cell of its operand bytes holds no value (R95). -/
def OperandCellHoldsNoValue (s : State) : Prop :=
  ∃ (op : Byte) (k : Nat), s.cell s.pc.toNat = some op ∧ decodeOpcode op ≠ none ∧ 1 ≤ k ∧ k ≤ operandCount op ∧
    s.pc.toNat + k < 256 ∧ s.cell (s.pc.toNat + k) = none

/-- A source register of the instruction written at the program counter holds no value, its register bytes all in range
(R93, R95). -/
def SourceRegisterHoldsNoValue (s : State) : Prop :=
  ∃ i : Instr, s.InstrAt i ∧ (∀ b ∈ registerBytes i, b.toNat < 8) ∧
    ∃ b ∈ sourceBytes i, ∃ _ : b.toNat < 8, s.regs[b.toNat] = none

/-- Once the opcode cell holds a value, an instruction that is read but not written has an operand cell that holds none. -/
theorem instrAt_or_operandCellHoldsNoValue {s : State} {i : Instr} (h : s.InstrRead i) (hop : s.cell s.pc.toNat ≠ none) :
    s.InstrAt i ∨ OperandCellHoldsNoValue s := by
  by_cases held : ∀ k : Fin (encode i).length, s.cell (s.pc.toNat + k) ≠ none
  · exact .inl (instrAt_of_cells_ne_none h held)
  · obtain ⟨⟨k, hk⟩, hcell⟩ := not_forall.1 held
    have opcode_written : s.cell s.pc.toNat = some i.opcode.byte := by rw [cell_eq_byteAt hop, (instrRead_pc h).2]
    have pos : k ≠ 0 := by rintro rfl; exact hcell hop
    have hrange := (h ⟨k, hk⟩).1
    rw [encode_length, instrLength] at hk
    exact .inr ⟨_, k, opcode_written, by simp, by omega, by omega, hrange, not_not.1 hcell⟩

/-- `readsNoValue_iff` with the bytes the step reads before the missing value written in memory, as R95 speaks of them. -/
theorem readsNoValue_iff_written {s : State} : readsNoValue s = true ↔
    (s.pc.toNat < 256 ∧ s.cell s.pc.toNat = none) ∨ OperandCellHoldsNoValue s ∨ SourceRegisterHoldsNoValue s := by
  rw [readsNoValue_iff]
  constructor
  · by_cases hop : s.cell s.pc.toNat = none
    · rintro (⟨hpc, -⟩ | ⟨-, k, -, -, -, hrange, -⟩ | ⟨i, hi, -⟩)
      · exact .inl ⟨hpc, hop⟩
      · exact .inl ⟨by omega, hop⟩
      · exact .inl ⟨(instrRead_pc hi).1, hop⟩
    · rintro (⟨-, hnone⟩ | ⟨o, k, ho, hk, hcount, hrange, hcell⟩ | ⟨i, hi, hsources⟩)
      · exact absurd hnone hop
      · exact .inr (.inl ⟨o.byte, k, ho ▸ cell_eq_byteAt hop, by simp, hk, hcount, hrange, hcell⟩)
      · obtain written | operand := instrAt_or_operandCellHoldsNoValue hi hop
        · exact .inr (.inr ⟨i, written, sourcesHoldNoValue_iff.1 hsources⟩)
        · exact .inr (.inl operand)
  · rintro (opcode | ⟨op, k, hop, hdec, hk, hcount, hrange, hcell⟩ | ⟨i, hi, hregs⟩)
    · exact .inl opcode
    · obtain ⟨o, ho⟩ := Option.ne_none_iff_exists'.1 hdec
      obtain rfl := decodeOpcode_eq_some.1 ho
      exact .inr (.inl ⟨o, k, State.byteAt_of_some hop, hk, hcount, hrange, hcell⟩)
    · exact .inr (.inr ⟨i, instrRead_of_instrAt hi, sourcesHoldNoValue_iff.2 hregs⟩)

/-- Settles O9: the model fault is reported of a step that reads no value, which with RESET_FILL = ZERO no step does. -/
theorem modelFaultExactlyOnReadsOfNoValue : Obligations.ModelFaultExactlyOnReadsOfNoValue := by
  refine ⟨fun s r hr => ?_, fun s hno => ?_, fun s r hs hfault => ?_⟩
  · rw [reportedStep_fault, readsNoValue_iff_written]
    exact ⟨fun ⟨_, hreads, e⟩ => ⟨e, hreads⟩, fun ⟨e, hreads⟩ => ⟨hr, hreads, e⟩⟩
  · obtain ⟨-, -, hfault⟩ | ⟨-, hnext⟩ := reportedStep_cases s
    · exact absurd hfault (hno _)
    · exact hnext
  · cases hfill : s.params.resetFill with
    | undefined => rfl
    | zero => exact absurd hfault (reportedStep_ne_fault_of_zero r hs hfill)

/-! ### The output -/

/-- Settles O23: of everything a step can do, PRN's completion alone emits. -/
theorem onlyACompletedPrintEmits : Obligations.OnlyACompletedPrintEmits := by
  intro s t h
  by_cases hrun : s.engine = .running
  · obtain ⟨-, rfl⟩ | ⟨-, -, -, -, rfl⟩ | ⟨-, -, -, -, rfl⟩ | ⟨-, -, -, -, -, -, -, rfl⟩ | ⟨-, -, -, -, -, -, rfl⟩ |
      ⟨r, hr, v, read, reads, -⟩ | ⟨-, rfl⟩ := step_next_cases hrun h
    case inr.inr.inr.inr.inr.inl =>
      obtain ⟨-, prn_rule, -⟩ := instructionsGoOnWithUnwrittenBytes
      have completes := (prn_rule r hr s v reads).2 hrun read
      exact .inr ⟨r, hr, v, hrun, read, reads, Host.Outcome.next.inj (h.symm.trans completes)⟩
    all_goals exact .inl rfl
  · rw [step_not_running hrun] at h
    cases h
    exact .inl rfl

end Sys2Proof.Machine

/-! PROOF. The faults (60_exceptions.md sections 2 to 4): fault entry, what a step that faults met, and when each cause is
raised. -/

namespace Sys2Proof.Machine

/-! ### Fault entry -/

theorem faultEntry_some (s : State) (op : Byte) (cause : FaultCause) (kind : FaultKind) (info : Word9) :
    faultEntry s (some op) cause kind info =
      { s with engine := .faulted, faultRegs := ⟨cause.code, kind.code, s.pc, op, 1, info⟩ } := rfl

theorem faultEntry_none (s : State) (cause : FaultCause) (kind : FaultKind) (info : Word9) :
    faultEntry s none cause kind info =
      { s with engine := .faulted, faultRegs := ⟨cause.code, kind.code, s.pc, 0, 0, info⟩ } := rfl

/-- The four ways a step of a Running core that is not the model fault ends Faulted, in the order of R93, each byte it read
written in memory: the opcode fetch, an illegal opcode, the operand fetch, and what the execute part raises. -/
theorem reportedStep_faulted_cases {s t : State} (hr : s.engine = .running) (h : reportedStep s = .next t)
    (hf : t.engine = .faulted) :
    (256 ≤ s.pc.toNat ∧ t = faultEntry s none .outOfRangeAccess .memory s.pc) ∨
    (∃ op, s.pc.toNat < 256 ∧ s.cell s.pc.toNat = some op ∧
      t = faultEntry s (some op) .unknownInstruction .memory (op.setWidth 9)) ∨
    (∃ o : Opcode, s.pc.toNat < 256 ∧ s.cell s.pc.toNat = some o.byte ∧ 256 ≤ s.pc.toNat + operandCount o.byte ∧
      t = faultEntry s (some o.byte) .outOfRangeAccess .memory 256) ∨
    (∃ i cause kind info, s.InstrAt i ∧ ¬sourcesHoldNoValue s i = true ∧ RaisedBy i s cause kind info ∧
      t = faultEntry s (some i.opcode.byte) cause kind info) := by
  obtain ⟨hstep, hvalue⟩ := step_of_reportedStep_next hr h
  have opcode_written := cell_pc_of_readsNoValue_eq_false hvalue
  obtain fetch | ⟨op, hpc, rfl, -, e⟩ | ⟨o, hpc, ho, hend, e⟩ | ⟨i, cause, kind, info, hi, hraised, -, e⟩ |
    ⟨i, d, hd, v, -, -, rfl⟩ | ⟨r, hr', v, -, -, rfl⟩ | ⟨-, rfl⟩ := step_next_cases hr hstep
  · exact .inl fetch
  · exact .inr (.inl ⟨_, hpc, opcode_written hpc, e⟩)
  · exact .inr (.inr (.inl ⟨o, hpc, ho ▸ opcode_written hpc, hend, e⟩))
  · obtain ⟨written, held⟩ := instrAt_of_readsNoValue_eq_false hi hvalue
    exact .inr (.inr (.inr ⟨i, cause, kind, info, written, held, hraised, e⟩))
  · cases hr.symm.trans hf
  · cases hr.symm.trans hf
  · cases hf

/-- An execute part raises kind REGISTER with OutOfRangeAccess alone (R87, R91). -/
theorem RaisedBy.cause_of_register {i : Instr} {s : State} {cause : FaultCause} {info : Word9}
    (h : RaisedBy i s cause .register info) : cause = .outOfRangeAccess := by
  obtain ⟨hcause, -⟩ | ⟨-, hkind, -⟩ := h
  · exact hcause
  · cases hkind

/-- The first byte of the instruction written at the program counter is its opcode byte (R52). -/
theorem instrAt_pc {s : State} {i : Instr} (h : s.InstrAt i) :
    s.pc.toNat < 256 ∧ s.cell s.pc.toNat = some i.opcode.byte := by
  obtain ⟨bs, he, -⟩ := encode_eq_cons i
  simpa [he] using h ⟨0, by simp [he]⟩

/-- Settles O31: fault entry field by field, and the entry of each way a step can fault. -/
theorem faultsArePreciseAndRecorded : Obligations.FaultsArePreciseAndRecorded := by
  refine ⟨fun s cause kind info => ⟨fun op => faultEntry_some s op cause kind info, faultEntry_none s cause kind info⟩,
    fun s t hr h hf => ?_⟩
  obtain ⟨hpc, e⟩ | ⟨op, hpc, hop, e⟩ | ⟨o, hpc, hop, -, e⟩ | ⟨i, cause, kind, info, hi, -, hraised, e⟩ :=
    reportedStep_faulted_cases hr h hf
  · exact ⟨.outOfRangeAccess, .memory, s.pc, nofun, .inl ⟨hpc, e⟩⟩
  · exact ⟨.unknownInstruction, .memory, op.setWidth 9, nofun, .inr ⟨op, hpc, hop, e⟩⟩
  · exact ⟨.outOfRangeAccess, .memory, 256, nofun, .inr ⟨o.byte, hpc, hop, e⟩⟩
  · obtain ⟨hpc, hop⟩ := instrAt_pc hi
    exact ⟨cause, kind, info, fun hkind => (hkind ▸ hraised).cause_of_register, .inr ⟨_, hpc, hop, e⟩⟩

/-! ### OutOfRangeAccess -/

/-- The first register byte of 8 or above of an instruction, in the order the bytes are checked (R56, R93). -/
def firstBadRegisterByte (i : Instr) : Option Byte := (registerBytes i).find? fun c => decide (8 ≤ c.toNat)

/-- An ALU instruction faults on its first register byte out of range, checking A and then B (R75). -/
theorem exec_aluInstr_of_firstBadRegisterByte {kind : AluKind} {A B b : Byte}
    (h : firstBadRegisterByte (kind.instr A B) = some b) (s : State) :
    exec (kind.instr A B) s =
      .next (faultEntry s (some kind.opcode.byte) .outOfRangeAccess .register (b.setWidth 9)) := by
  rw [firstBadRegisterByte, registerBytes_aluInstr] at h
  by_cases hA : 8 ≤ A.toNat
  · rw [List.find?_cons_of_pos (by simpa using hA)] at h
    cases h
    exact exec_aluInstr_of_left_ge hA kind B s
  · rw [List.find?_cons_of_neg (by simpa using hA)] at h
    obtain rfl := List.mem_singleton.1 (List.mem_of_find?_eq_some h)
    exact exec_aluInstr_of_right_ge (Nat.lt_of_not_le hA) (by simpa using List.find?_some h) kind s

/-- Every execute part faults on its first register byte of 8 or above: LDI and PRN have one register byte, HLT none, an
ALU instruction two (R56, R87). -/
theorem exec_of_firstBadRegisterByte {i : Instr} {b : Byte} (h : firstBadRegisterByte i = some b) (s : State) :
    exec i s = .next (faultEntry s (some i.opcode.byte) .outOfRangeAccess .register (b.setWidth 9)) := by
  have hge : 8 ≤ b.toNat := by simpa using List.find?_some h
  have hmem : b ∈ registerBytes i := List.mem_of_find?_eq_some h
  cases i with
  | ldi r imm =>
    obtain rfl := List.mem_singleton.1 hmem
    exact exec_ldi_of_ge hge imm s
  | prn r =>
    obtain rfl := List.mem_singleton.1 hmem
    exact exec_prn_of_ge hge s
  | hlt => cases hmem
  | mul A B => exact exec_aluInstr_of_firstBadRegisterByte (kind := .mul) h s
  | div A B => exact exec_aluInstr_of_firstBadRegisterByte (kind := .div) h s
  | add A B => exact exec_aluInstr_of_firstBadRegisterByte (kind := .add) h s
  | sub A B => exact exec_aluInstr_of_firstBadRegisterByte (kind := .sub) h s

/-- Settles O32: each of the three checks raises it, and every other way a step can fault has another cause. -/
theorem outOfRangeAccessExactlyWhenOutOfRange : Obligations.OutOfRangeAccessExactlyWhenOutOfRange := by
  refine ⟨fetchAtTheEndOfMemoryFaults, operandFetchRule_byte, fun s i hr hi hbad => ?_,
    fun s t hr hpc h hf hcause => ?_⟩
  · have found : (firstBadRegisterByte i).isSome := List.find?_isSome.2 (by simpa using hbad)
    obtain ⟨b, hb⟩ := Option.isSome_iff_exists.1 found
    exact ⟨b, hb, step_of_exec_faulted hr (instrRead_of_instrAt hi) (exec_of_firstBadRegisterByte hb s) rfl⟩
  · obtain ⟨hge, rfl⟩ | ⟨op, -, -, rfl⟩ | ⟨o, -, hop, hend, rfl⟩ |
      ⟨i, cause, kind, info, hi, -, ⟨rfl, rfl, b, hb, hb8, rfl⟩ | ⟨rfl, -⟩, rfl⟩ := reportedStep_faulted_cases hr h hf
    · have at_end : s.pc = 256 := BitVec.eq_of_toNat_eq (le_antisymm hpc hge)
      exact .inl ⟨rfl, at_end, .inl at_end⟩
    · exact absurd hcause (by simp [FaultCause.code])
    · exact .inl ⟨rfl, rfl, .inr ⟨o.byte, hop, by simp, hend⟩⟩
    · exact .inr ⟨rfl, i, hi, b, hb, hb8, rfl⟩
    · exact absurd hcause (by simp [FaultCause.code])

/-! ### UnsupportedOperation -/

/-- The cause of a fault that the status registers tell is one of the three that can be raised (R90). -/
theorem State.FaultTold.cause {s : State} (h : s.FaultTold) :
    s.faultRegs.cause = 1 ∨ s.faultRegs.cause = 2 ∨ s.faultRegs.cause = 4 := by
  obtain ⟨-, ⟨hcause, -⟩ | ⟨-, -, -, ⟨hcause, -⟩ | ⟨hcause, -⟩ | ⟨hcause, -⟩ | ⟨hcause, -⟩⟩⟩ := h
  · exact .inl hcause
  · exact .inl hcause
  · exact .inl hcause
  · exact .inr (.inl hcause)
  · exact .inr (.inr hcause)

/-- Settles O33: the invariant holds in every reached state; a Faulted core tells its fault, and any other has clear
registers. -/
theorem unsupportedOperationIsNeverRaised : Obligations.UnsupportedOperationIsNeverRaised := by
  intro p s h
  have inv := reached_inv h
  by_cases hf : s.engine = .faulted
  · exact .inr (inv.faultTold hf).cause
  · exact .inl (by rw [inv.noFault hf]; rfl)

/-! ### DivideByZero -/

/-- A register that does not hold no value holds what it reads as (R31). -/
theorem regs_of_regReads {s : State} {i : Fin 8} {x : Byte} (h : s.RegReads i x) (held : s.regs[i] ≠ none) :
    s.regs[i] = some x := h.resolve_right fun ⟨hnone, _⟩ => held hnone

/-- Settles O34: DIV's execute part raises it, and of the ways a step can fault the divide by zero alone has its cause. -/
theorem divideByZeroExactlyInDivideMode : Obligations.DivideByZeroExactlyInDivideMode := by
  refine ⟨fun s A B hA hB hr hi hmode _ hzero => ?_, fun s t hr h hf hcause => ?_⟩
  · have divides := exec_div_of_regReads_zero hA (hB := hB) hmode (.inl hzero)
    exact step_of_exec_faulted hr (instrRead_of_instrAt hi) divides rfl
  · obtain ⟨-, rfl⟩ | ⟨op, -, -, rfl⟩ | ⟨o, -, -, -, rfl⟩ |
      ⟨i, cause, kind, info, hi, held, ⟨rfl, -⟩ | ⟨-, -, hmode, A, B, rfl, rfl, hA, hB, hzero⟩, rfl⟩ :=
      reportedStep_faulted_cases hr h hf
    case inr.inr.inr.inr =>
      obtain ⟨heldA, heldB⟩ := not_or.1 (mt (sourcesHoldNoValue_aluInstr hA hB .div s).2 held)
      exact ⟨hmode, A, B, hA, hB, hi, heldA, regs_of_regReads hzero heldB, rfl⟩
    all_goals exact absurd hcause (by simp [FaultCause.code])

end Sys2Proof.Machine

/-! PROOF. Reset, load, run and the end of a run (70_reset_and_hazards.md): what the host's operations leave unchanged,
what `load` stores, how a program starts, and the bound on its steps. -/

namespace Sys2Proof.Machine

/-! ### What steps and host operations leave -/

/-- Settles O13: the frame of a step, and outside Idle no host operation but reset changes anything. -/
theorem memoryChangesOnlyByTheHostInIdle : Obligations.MemoryChangesOnlyByTheHostInIdle := by
  refine ⟨fun s t h => ?_, fun o s ho hidle => congrArg State.mem (hostOp_of_ne_idle ho hidle)⟩
  obtain ⟨-, -, hmem⟩ := step_frame h
  exact ⟨hmem, step_cell h⟩

/-- Settles O38: `hostOp_inv`, by reset and the other operations' three cases. -/
theorem everyHostOperationKeepsTheInvariant : Obligations.EveryHostOperationKeepsTheInvariant :=
  fun o _ => hostOp_inv o

/-- Settles O50: the frame of a host operation, and a Running core is not Idle. -/
theorem hostCannotInterfereWithARun : Obligations.HostCannotInterfereWithARun := by
  intro o s ho
  refine ⟨?regs, ?pc, ?faultRegs, ?out, fun hr => hostOp_of_ne_idle ho (by rw [hr]; nofun)⟩
  all_goals rw [hostOp_frame s ho]

/-- Settles O48: `status` reads the state, and STATE is the code of each engine state. -/
theorem statusReturnsTheStatusRegisters : Obligations.StatusReturnsTheStatusRegisters := by
  refine fun s => ⟨rfl, rfl, ?_⟩
  rw [hostStatus]
  cases s.engine <;> rfl

/-! ### load -/

theorem isByteValue_iff {v : Int} : isByteValue v = true ↔ 0 ≤ v ∧ v ≤ 255 := by
  rw [isByteValue, Bool.and_eq_true, decide_eq_true_iff, decide_eq_true_iff]
  omega

/-- `load` finds a value that is no byte exactly when there is one (R112). -/
theorem any_not_isByteValue_iff {bytes : List Int} :
    (bytes.any fun v => !isByteValue v) = true ↔ ∃ v ∈ bytes, v < 0 ∨ 255 < v := by
  simp only [List.any_eq_true, Bool.not_eq_true', ← Bool.not_eq_true, isByteValue_iff, not_and_or, not_le]

/-- Integers in the range of a byte are the values of a list of bytes. -/
theorem exists_bytes_of_range {values : List Int} (h : ∀ v ∈ values, 0 ≤ v ∧ v ≤ 255) :
    ∃ bs : List Byte, values = bs.map fun b => (b.toNat : Int) := by
  refine ⟨values.map (BitVec.ofInt 8), ?_⟩
  rw [List.map_map]
  refine (List.map_id values).symm.trans (List.map_congr_left fun v hv => ?_)
  obtain ⟨hlow, hhigh⟩ := h v hv
  rw [Function.comp_apply, BitVec.toNat_ofInt, id_eq]
  omega

section
variable {bytes : List Int} {s : State}

theorem hostLoad_of_ne_idle (h : s.engine ≠ .idle) : hostLoad bytes s = (.notIdle, s) := if_pos h

theorem hostLoad_of_badByte (hidle : s.engine = .idle) (h : ∃ v ∈ bytes, v < 0 ∨ 255 < v) :
    hostLoad bytes s = (.badByte, s) := by
  rw [hostLoad, if_neg (not_not.2 hidle), if_pos (any_not_isByteValue_iff.2 h)]

theorem hostLoad_of_tooLarge (hidle : s.engine = .idle) (h : ∀ v ∈ bytes, 0 ≤ v ∧ v ≤ 255) (hlen : 256 < bytes.length) :
    hostLoad bytes s = (.programTooLarge, s) := by
  have no_bad_byte : ¬∃ v ∈ bytes, v < 0 ∨ 255 < v := by
    rintro ⟨v, hv, bad⟩
    have in_range := h v hv
    omega
  rw [hostLoad, if_neg (not_not.2 hidle), if_neg (mt any_not_isByteValue_iff.1 no_bad_byte), if_pos hlen]

end

/-- Bytes stored from address 0 leave every cell from their number on (R110). -/
theorem storeBytes_zero_cell_of_ge {s t : State} {bs : List Byte} (h : storeBytes s 0 bs = .ok t)
    (hlen : bs.length ≤ 256) {a : Nat} (ha : bs.length ≤ a) : t.cell a = s.cell a := by
  obtain ⟨u, hu, -, above⟩ := storeBytes_spec bs s 0 (by omega)
  obtain rfl := Except.ok.inj (hu.symm.trans h)
  exact above a (.inr (by omega))

/-- Settles O46: the three refusals in their order, and the store of the bytes the integers are. -/
theorem loadRule : Obligations.LoadRule := by
  refine fun bytes s => ⟨hostLoad_of_ne_idle, hostLoad_of_badByte, hostLoad_of_tooLarge, fun hidle hrange hlen => ?_⟩
  obtain ⟨bs, rfl⟩ := exists_bytes_of_range hrange
  rw [List.length_map] at hlen
  obtain ⟨t, hload, hstore, hcells⟩ := hostLoad_of_bytes hidle bs hlen
  refine ⟨t, hload, storeBytes_frame hstore, fun k hk => ?_, fun a ha => ?_⟩
  · rw [List.length_map] at hk
    exact ⟨bs[k], hcells k hk, by rw [List.getElem_map]⟩
  · rw [List.length_map] at ha
    exact storeBytes_zero_cell_of_ge hstore hlen ha

/-- The last clause of O46 is met at its bound: 256 bytes fill the memory and load (R112), after any reset. -/
theorem witness_loadRule_fullMemory (p : Params) (boot : Nat) :
    ∃ t, hostLoad (List.replicate 256 255) (State.resetWith p boot) = (.ok, t) := by
  obtain ⟨-, -, -, accepts⟩ := loadRule (List.replicate 256 255) (State.resetWith p boot)
  obtain ⟨t, hload, -⟩ := accepts rfl (fun v hv => by rw [List.eq_of_mem_replicate hv]; decide)
    (by rw [List.length_replicate])
  exact ⟨t, hload⟩

/-! ### The end of a run -/

/-- A step of a Running core halts, faults, or goes on Running at a later address, at most 256 (R118). -/
theorem step_ends_or_advances {s t : State} (hr : s.engine = .running) (h : step s = .next t) :
    (t.engine = .halted ∨ t.engine = .faulted) ∨
      (t.engine = .running ∧ s.pc.toNat < t.pc.toNat ∧ t.pc.toNat ≤ 256) := by
  obtain ⟨i, hc⟩ | hf := step_completes_or_entersFault hr h
  · by_cases hi : i = .hlt
    · exact .inl (.inl (by rw [hc.engine, if_pos hi]))
    · have in_memory := instrRead_end hc.read
      rw [← hc.pc] at in_memory
      exact .inr ⟨by rw [hc.engine, if_neg hi], by rw [hc.pc, instrLength]; omega, in_memory⟩
  · exact .inl (.inr hf.engine)

/-- Once a step has ended the run, the state of the end stands (log entry 3). -/
theorem run_of_step_ended {s t : State} (h : step s = .next t) (hend : t.engine = .halted ∨ t.engine = .faulted)
    (k : Nat) : Host.Core.run core (k + 1) s = .next t := by
  have stopped : t.engine ≠ .running := by obtain e | e := hend <;> rw [e] <;> nofun
  exact (run_succ_of_step (M := core) h k).trans (run_not_running stopped k)

/-- A run whose first step is a fault outcome stops there. -/
theorem run_succ_of_step_fault {M : Host.Core} {s : M.State} {r : M.Fault} (h : M.step s = .fault r) (k : Nat) :
    M.run (k + 1) s = .fault r := by
  rw [Host.Core.run, h]

/-- `k + 1` steps end a run that is `k` addresses or fewer below the end of memory: each step that does not end it takes
the program counter up. -/
theorem run_ends {k : Nat} {s : State} (hr : s.engine = .running) (hk : 256 ≤ s.pc.toNat + k) :
    ∃ t, Host.Core.run core (k + 1) s = .next t ∧ (t.engine = .halted ∨ t.engine = .faulted) := by
  induction k generalizing s with
  | zero =>
    obtain ⟨t, ht⟩ := step_next s
    obtain hend | ⟨-, hpc, hle⟩ := step_ends_or_advances hr ht
    · exact ⟨t, run_of_step_ended ht hend 0, hend⟩
    · omega
  | succ k ih =>
    obtain ⟨t, ht⟩ := step_next s
    obtain hend | ⟨hrt, hpc, -⟩ := step_ends_or_advances hr ht
    · exact ⟨t, run_of_step_ended ht hend _, hend⟩
    · rw [run_succ_of_step (M := core) ht]
      exact ih hrt (by omega)

/-- The reported run is the machine's own, unless the model fault stops it (R95). -/
theorem run_reportedCore_of_run {k : Nat} {s t : State} (h : Host.Core.run core k s = .next t) :
    (∃ r, Host.Core.run reportedCore k s = .fault r) ∨ Host.Core.run reportedCore k s = .next t := by
  induction k generalizing s with
  | zero => cases h; exact .inr rfl
  | succ k ih =>
    obtain ⟨u, hu⟩ := step_next s
    rw [run_succ_of_step (M := core) hu] at h
    obtain ⟨-, -, hfault⟩ | ⟨-, reported⟩ := reportedStep_cases s
    · exact .inl ⟨_, run_succ_of_step_fault (M := reportedCore) hfault k⟩
    · rw [run_succ_of_step (M := reportedCore) ((reported u).2 hu)]
      exact ih h

/-- Settles O39: the bound on the machine's run, which the reported run shares unless it ends at the model fault. -/
theorem everyRunEndsWithin257Steps : Obligations.EveryRunEndsWithin257Steps := by
  intro s hr
  obtain ⟨t, hrun, hend⟩ := run_ends (k := 256) hr (Nat.le_add_left ..)
  refine ⟨⟨t, hrun, hend⟩, ?_⟩
  obtain ⟨r, e⟩ | e := run_reportedCore_of_run hrun <;> rw [e]
  · trivial
  · exact hend

/-! ### run -/

theorem hostRun_of_idle {s : State} (h : s.engine = .idle) : hostRun s = (.ok, s.setEngine .running) := if_pos h

theorem hostRun_of_ne_idle {s : State} (h : s.engine ≠ .idle) : hostRun s = (.notIdle, s) := if_neg h

/-- Settles O47: `run` by the engine state, and the bound of O39 from the Running state it gives. -/
theorem runIsAcceptedOnlyInIdle : Obligations.RunIsAcceptedOnlyInIdle :=
  fun s => ⟨fun hidle => ⟨hostRun_of_idle hidle, (everyRunEndsWithin257Steps (s.setEngine .running) rfl).2⟩,
    hostRun_of_ne_idle⟩

/-- Bytes in memory from the program counter up that decode have the decoded instruction at the program counter. -/
theorem instrAt_of_decode {s : State} {bytes rest : List Byte} {i : Instr}
    (hbytes : ∀ (k : Nat) (hk : k < bytes.length), s.pc.toNat + k < 256 ∧ s.cell (s.pc.toNat + k) = some bytes[k])
    (h : decode bytes = .ok (i, rest)) : s.InstrAt i := by
  obtain rfl := (decodeReadsExactlyTheEncodings bytes rest i).1 h
  intro k
  obtain ⟨hrange, hcell⟩ := hbytes k (by rw [List.length_append]; omega)
  exact ⟨hrange, hcell.trans (congrArg some (List.getElem_append_left k.isLt))⟩

/-- Settles O51: the state after reset is Idle, `load` stores the bytes and `run` starts the core. -/
theorem bootRunsTheLoadedProgramFromZero : Obligations.BootRunsTheLoadedProgramFromZero := by
  intro s0 bytes hlen
  obtain ⟨t, hload, hstore, hcells⟩ := hostLoad_of_bytes (s := hostReset s0) rfl bytes hlen
  have frame := storeBytes_frame hstore
  have hpc : t.pc = 0 := congrArg State.pc frame
  refine ⟨t.setEngine .running, ?_, rfl, hpc, congrArg State.out frame, by rw [frame]; rfl, hcells,
    fun i rest hdec => instrAt_of_decode (fun k hk => ?_) hdec⟩
  · rw [hostOp, hostOp, hostOp, hload, hostRun_of_idle (congrArg State.engine frame)]
  · have at_zero : (t.setEngine .running).pc.toNat + k = k := by rw [State.setEngine_pc, hpc]; exact Nat.zero_add k
    rw [at_zero]
    exact ⟨hk.trans_le hlen, hcells k hk⟩

end Sys2Proof.Machine

/-! PROOF. Two instances of what holds in general: words written out from the opcode table (30_encoding.md section 2) are
encodings, and the model's own reset (10_state.md section 8) is a reset. -/

namespace Sys2Proof

/-- An encoding alone decodes to its instruction, and no byte is left over (R68). -/
theorem decode_encode (i : Instr) : decode (encode i) = .ok (i, []) := by
  have h := decode_encode_append i []
  rwa [List.append_nil] at h

/-- Settles O3: each word written out is the encoding of its instruction. -/
theorem wordsWrittenOutFromTheTableDecode : Obligations.WordsWrittenOutFromTheTableDecode :=
  ⟨decode_encode (.ldi 0 8), decode_encode (.prn 0), decode_encode .hlt, decode_encode (.mul 6 7),
    decode_encode (.div 2 3), decode_encode (.add 0 1), decode_encode (.sub 4 4)⟩

end Sys2Proof

namespace Sys2Proof.Machine

/-- Settles O36: every reset meets the invariant, and `State.reset` is the one from `Config.resetParams`. -/
theorem resetMeetsTheInvariant : Obligations.ResetMeetsTheInvariant :=
  ⟨resetWith_inv, resetWith_inv Config.resetParams 0⟩

end Sys2Proof.Machine
